-- ==== Sys2Proof/Word.lean ====
section
/-!
DEFINITION. The value types of KECCAK-CORE: bytes, command words, lanes and the 5×5 lane array.
-/

namespace Sys2Proof

/-- One byte of a stream or of the byte view (R11, R52, R53). -/
abbrev Byte := BitVec 8

/-- One command word or status word: a 32-bit unit without a byte order (R58, R70, R36). -/
abbrev Word := BitVec 32

/-- One lane of the state register: 64 bits, bit 0 least significant (R10, R20). -/
abbrev Lane := BitVec 64

/-- Five like things, indexed by a residue mod 5. -/
structure Five (α : Type) where
  (a0 a1 a2 a3 a4 : α)
  deriving DecidableEq, Repr

/-- The entry at an index; `Fin 5` makes index arithmetic mod 5 (R10). -/
def Five.get {α : Type} (r : Five α) (x : Fin 5) : α :=
  match x with
  | 0 => r.a0
  | 1 => r.a1
  | 2 => r.a2
  | 3 => r.a3
  | 4 => r.a4

/-- The five values of a function of the index. -/
def Five.of {α : Type} (f : Fin 5 → α) : Five α := ⟨f 0, f 1, f 2, f 3, f 4⟩

@[simp] theorem Five.get_of {α : Type} (f : Fin 5 → α) (x : Fin 5) : (Five.of f).get x = f x := by
  fin_cases x <;> rfl

theorem Five.ext_get {α : Type} {r q : Five α} (h : ∀ x, r.get x = q.get x) : r = q := by
  have h0 := h 0
  have h1 := h 1
  have h2 := h 2
  have h3 := h 3
  have h4 := h 4
  cases r
  cases q
  simp_all [Five.get]

/-- The state register A: five rows (y) of five lanes (x), 1600 bits in all (R20). -/
abbrev Lanes := Five (Five Lane)

/-- `A[x,y]`, the lane at column x, row y (R10, R20). -/
def Lanes.lane (A : Lanes) (x y : Fin 5) : Lane := (A.get y).get x

/-- The lane array whose lane at (x, y) is `f x y`. -/
def Lanes.of (f : Fin 5 → Fin 5 → Lane) : Lanes := Five.of fun y => Five.of fun x => f x y

@[simp] theorem Lanes.lane_of (f : Fin 5 → Fin 5 → Lane) (x y : Fin 5) : (Lanes.of f).lane x y = f x y := by
  simp [Lanes.lane, Lanes.of]

theorem Lanes.ext_lane {A B : Lanes} (h : ∀ x y, A.lane x y = B.lane x y) : A = B :=
  Five.ext_get fun y => Five.ext_get fun x => h x y

/-- All 25 lanes zero (R42, R155). -/
def Lanes.zero : Lanes := Lanes.of fun _ _ => 0

@[simp] theorem Lanes.lane_zero (x y : Fin 5) : Lanes.zero.lane x y = 0 := by simp [Lanes.zero]

end Sys2Proof
end

