-- ==== Sys2Proof/Syntax.lean ====
section
/-!
DEFINITION. The commands of KC-IF v1 as syntax: one constructor per row of spec/opcode_table.json (R74).
-/

namespace Sys2Proof

/-- The family selected by the FAM bit of an INIT word (R70, R72): 0 = SHA3, 1 = SHAKE. -/
inductive Family where
  | sha3
  | shake
  deriving DecidableEq, Repr

/-- A legal command (R74). A `Nat` operand is the value n of the 24-bit LEN field (R71). -/
inductive Instr where
  /-- INIT: begin a new instance with the preset of (family, security level) (R150). -/
  | init (fam : Family) (level : Nat)
  /-- ABSORB: append n payload bytes to the message (R131). -/
  | absorb (n : Nat)
  /-- SQUEEZE: emit the next n output bytes (R134). -/
  | squeeze (n : Nat)
  /-- DIGEST: emit the fixed-length digest (R138). -/
  | digest
  /-- PERMUTE: apply Keccak-f[1600] to the state register (R111). -/
  | permute
  /-- SLOAD: load the state register from n payload bytes (R93). -/
  | sload (n : Nat)
  /-- SREAD: emit the 200-byte view of the state register (R94). -/
  | sread
  deriving DecidableEq, Repr

end Sys2Proof
end

