-- ==== Sys2Proof/WellFormed.lean ====
section
/-!
DEFINITION. Which commands a command word can express: an operand is the value of the 24-bit LEN field (R70, R71).
-/

namespace Sys2Proof

/-- `n` fits the LEN field: 0..16,777,215 (R71). -/
def lenFits (n : Nat) : Bool := n < 2 ^ 24

/-- A command that some legal command word stands for (R71, R75). -/
def Instr.wf : Instr → Bool
  | .init _ level => lenFits level
  | .absorb n => lenFits n
  | .squeeze n => lenFits n
  | .digest => true
  | .permute => true
  | .sload n => lenFits n
  | .sread => true

end Sys2Proof
end

