-- ==== Sys2Proof/Decode.lean ====
section
/-!
DEFINITION. Decoding of 32-bit command words, total and rejecting by name (R70 to R78), and the encoder (R81 to R84).
-/

namespace Sys2Proof

/-- OP, bits [3:0] (R70). -/
def opOf (w : Word) : BitVec 4 := w.extractLsb' 0 4

/-- FAM, bit [4], read as a family (R70, R72). -/
def famOf (w : Word) : Family := if w.getLsbD 4 then .shake else .sha3

/-- RSV, bits [7:5] (R70). -/
def rsvOf (w : Word) : BitVec 3 := w.extractLsb' 5 3

/-- The operand value n = zext_32(word[31:8]) (R71). -/
def lenOf (w : Word) : Nat := (w.extractLsb' 8 24).toNat

/-- PayloadLen(word): n for OP 0x2 and 0x6, otherwise 0, whatever RSV and FAM hold (R73). -/
def payloadLen (w : Word) : Nat :=
  match (opOf w).toNat with
  | 2 => lenOf w
  | 6 => lenOf w
  | _ => 0

/-- Why a word is illegal (R75, R76). Both kinds complete with IllegalCommand. -/
inductive Illegal where
  /-- Opcode 0x0 or 0x8..0xF (R76). -/
  | reservedOpcode
  /-- A reserved field of a defined opcode is not 0 (R75). -/
  | reservedField
  deriving DecidableEq, Repr

/-- One row of R75: the word is legal exactly when `word & mask = match`. -/
def ifMatches (w mask pattern : Word) (i : Instr) : Except Illegal Instr :=
  if w &&& mask = pattern then .ok i else .error .reservedField

/-- Decode(word) (R77), with the MASK and MATCH columns of R75. -/
def decode (w : Word) : Except Illegal Instr :=
  match (opOf w).toNat with
  | 1 => ifMatches w 0x000000EF 0x00000001 (.init (famOf w) (lenOf w))
  | 2 => ifMatches w 0x000000FF 0x00000002 (.absorb (lenOf w))
  | 3 => ifMatches w 0x000000FF 0x00000003 (.squeeze (lenOf w))
  | 4 => ifMatches w 0xFFFFFFFF 0x00000004 .digest
  | 5 => ifMatches w 0xFFFFFFFF 0x00000005 .permute
  | 6 => ifMatches w 0x000000FF 0x00000006 (.sload (lenOf w))
  | 7 => ifMatches w 0xFFFFFFFF 0x00000007 .sread
  | _ => .error .reservedOpcode

/-- A word with operand `n` in LEN and `low` in bits [7:0] (R70). -/
def lenWord (n : Nat) (low : BitVec 8) : Word := BitVec.ofNat 32 n <<< 8 ||| low.setWidth 32

/-- The word of a command (R81 to R84). -/
def encode : Instr → Word
  | .init .sha3 level => lenWord level 0x01
  | .init .shake level => lenWord level 0x11
  | .absorb n => lenWord n 0x02
  | .squeeze n => lenWord n 0x03
  | .digest => 0x00000004
  | .permute => 0x00000005
  | .sload n => lenWord n 0x06
  | .sread => 0x00000007

/-- The instruction the decoder reads from a word whose bits, numbered as spec/opcode_table.json numbers them, are `w`.
A command word moves as one 32-bit unit (R58), so it has no byte order to undo. -/
def decodeTableWord (nbits w : Nat) : Option Instr :=
  if nbits ≤ 32 then (decode (BitVec.ofNat 32 (w % 2 ^ nbits))).toOption else none

end Sys2Proof
end

