-- ==== Sys2Proof/Config.lean ====
section
/-!
DEFINITION. What an implementation fixes and what the spec leaves open. DOUT_DEPTH (R8, R53) is a field of State, so that
a run can be evaluated and a statement holds for every depth. LATENCY (R8, R200) is read by no rule and is not modelled.
-/

namespace Sys2Proof.Config

/-- The unspecified value the `k`-th status read made while BUSY = 1 returns in the fields other than BUSY (R196,
93_implementation_defined I6: "a draw per read; two reads may differ"). No body: nothing can be proved of its value. -/
opaque freeStatus : Nat → BitVec 32

end Sys2Proof.Config
end

