-- ==== Sys2Proof/Machine/State.lean ====
section
/-!
DEFINITION. The state of the engine and of its four ports (10_state.md, 20_memory.md), and the state after reset.
BUF_LEN and BUSY are views of BUF and of `activity` (Machine/Flags.lean): R43 lists neither as state of its own.
The command channel, the host's script and the host's observations are the model's way to hold the environment as plain
data (notes/assumptions/1.md, 2.md, 3.md).
-/

namespace Sys2Proof.Machine

/-- MODE (R23): 0 = Fixed (a SHA3 instance), 1 = Extendable (a SHAKE instance). -/
inductive Mode where
  | fixed
  | extendable
  deriving DecidableEq, Repr

/-- PHASE (R27): 0 = Absorbing, 1 = Squeezing. -/
inductive Phase where
  | absorbing
  | squeezing
  deriving DecidableEq, Repr

/-- The result codes of R161. Codes 7..15 are never produced, so ERR needs no value for them (93 I12). -/
inductive ErrCode where
  | success
  | invalidSecurityLevel
  | invalidPhase
  | invalidMode
  | invalidLength
  | illegalCommand
  | notConfigured
  deriving DecidableEq, Repr

/-- What the engine is doing between two steps. Anything but `idle` means BUSY = 1 (R31). -/
inductive Activity where
  /-- No command is in progress. -/
  | idle
  /-- The accepted command waits for the rest of its payload on DIN (R194). -/
  | payload (i : Instr)
  /-- An accepted illegal word waits for the `n` payload bytes that R73 makes the engine take. -/
  | discard (n : Nat)
  /-- The accepted command waits for room on DOUT; `rest` is its output not yet placed there (R195). -/
  | output (rest : List Byte)
  deriving DecidableEq, Repr

/-- What the host can do at the ports and the reset input (R36, R50 to R53, R190). -/
inductive HostAct where
  /-- Present a word on the command channel (R51). -/
  | present (w : Word)
  /-- Transfer bytes on DIN, one after another (R52). -/
  | send (bs : List Byte)
  /-- Take up to `n` bytes from DOUT, as many as are there (R53). -/
  | drain (n : Nat)
  /-- Read status word SR[i] (R36). -/
  | readStatus (i : BitVec 2)
  /-- Assert the reset input (R190). -/
  | reset
  /-- Do nothing for one turn of the engine. -/
  | idle
  deriving DecidableEq, Repr

/-- The host beside the engine: what it will do, in order, and what it has received. The model's own, not the spec's. -/
structure HostSide where
  script : List HostAct
  gotBytes : List Byte
  gotStatus : List Word
  deriving DecidableEq, Repr

/-- The whole state (R43): the registers of 10_state.md, the ports of 20_memory.md and the host side. -/
structure State where
  /-- The state register A (R20). -/
  A : Lanes
  /-- The absorb buffer BUF (R22). -/
  buf : List Byte
  /-- CONFIGURED (R26). -/
  configured : Bool
  /-- MODE (R23). -/
  mode : Mode
  /-- LEVEL (R24). -/
  level : BitVec 16
  /-- RATE_BYTES (R25). -/
  rateBytes : BitVec 8
  /-- DIGEST_BYTES (R25). -/
  digestBytes : BitVec 8
  /-- PHASE (R27). -/
  phase : Phase
  /-- SQ_OFF (R28). -/
  sqOff : BitVec 8
  /-- ERR (R29). -/
  err : ErrCode
  /-- STICKY (R30). -/
  sticky : Bool
  /-- The command in progress, if any; BUSY is a view of it (R31). -/
  activity : Activity
  /-- The word the command channel holds, presented and not yet accepted (R51, R193). -/
  chan : Option Word
  /-- DIN bytes transferred and not yet taken, oldest first (R52). -/
  din : List Byte
  /-- DOUT bytes placed and not yet drained, oldest first (R53). -/
  dout : List Byte
  /-- The OPEN parameter DOUT_DEPTH (R8, R53); no step changes it. -/
  doutDepth : Nat
  /-- How many status reads were made while BUSY = 1: the model's counter of free values (R196). -/
  statusDraws : Nat
  /-- The host side: the model's own. -/
  host : HostSide
  deriving DecidableEq, Repr

/-- Why the machine stops with a fault: never. The engine has no traps (R167), an error is a result code and the engine then
accepts the next command (R160), and a missing payload or a full DOUT is a wait, in which the step answers the same state
(R194, R195). No constructor, so nobody raises one. -/
inductive Fault where
  deriving DecidableEq, Repr

/-- Why the machine refuses an instruction. -/
inductive Refusal where
  /-- Raised by an arm of `exec` whose instruction has no meaning yet; safe. No arm of this model raises it. -/
  | notModelled (mnemonic : String)
  deriving DecidableEq, Repr

/-- The state right after reset (R42, R190): every register at the value of R42, both streams empty, the channel holding no
word. `doutDepth` is an OPEN parameter; its value here is a DESIGN CHOICE (notes/assumptions/4.md) on which nothing rests. -/
def State.reset : State where
  A := Lanes.zero
  buf := []
  configured := false
  mode := .fixed
  level := 0
  rateBytes := 0
  digestBytes := 0
  phase := .absorbing
  sqOff := 0
  err := .success
  sticky := false
  activity := .idle
  chan := none
  din := []
  dout := []
  doutDepth := 16777216
  statusDraws := 0
  host := ⟨[], [], []⟩

end Sys2Proof.Machine
end

