-- ==== Sys2Proof/Machine/Flags.lean ====
section
/-!
DEFINITION. The status bits and the status registers SR[0] to SR[3] (10_state.md R22, R29 to R31, R36 to R40).
-/

namespace Sys2Proof.Machine

/-- BUF_LEN, the 8-bit length of BUF (R22). -/
def State.bufLen (s : State) : BitVec 8 := BitVec.ofNat 8 s.buf.length

/-- BUSY: a command is in progress (R31). -/
def State.busy (s : State) : Bool :=
  match s.activity with
  | .idle => false
  | .payload _ => true
  | .discard _ => true
  | .output _ => true

/-- The value of ERR (R161). -/
def ErrCode.bits : ErrCode → BitVec 4
  | .success => 0
  | .invalidSecurityLevel => 1
  | .invalidPhase => 2
  | .invalidMode => 3
  | .invalidLength => 4
  | .illegalCommand => 5
  | .notConfigured => 6

/-- The value of MODE (R23). -/
def Mode.bit : Mode → Bool
  | .fixed => false
  | .extendable => true

/-- The value of PHASE (R27). -/
def Phase.bit : Phase → Bool
  | .absorbing => false
  | .squeezing => true

/-- A field of a status word, its bit 0 at bit `lo`. -/
def fieldAt {n : Nat} (v : BitVec n) (lo : Nat) : Word := v.setWidth 32 <<< lo

/-- SR[0] STATUS (R37): [3:0] ERR, [4] STICKY, [5] CONFIGURED, [6] PHASE, [7] MODE, [8] BUSY, [31:9] 0. -/
def State.statusWord (s : State) : Word :=
  fieldAt s.err.bits 0 ||| fieldAt (BitVec.ofBool s.sticky) 4 ||| fieldAt (BitVec.ofBool s.configured) 5 |||
    fieldAt (BitVec.ofBool s.phase.bit) 6 ||| fieldAt (BitVec.ofBool s.mode.bit) 7 ||| fieldAt (BitVec.ofBool s.busy) 8

/-- SR[1] CONFIG (R38): [15:0] LEVEL, [23:16] RATE_BYTES, [31:24] DIGEST_BYTES. -/
def State.configWord (s : State) : Word := fieldAt s.level 0 ||| fieldAt s.rateBytes 16 ||| fieldAt s.digestBytes 24

/-- SR[2] POSITION (R39): [7:0] BUF_LEN, [15:8] SQ_OFF, [31:16] 0. -/
def State.positionWord (s : State) : Word := fieldAt s.bufLen 0 ||| fieldAt s.sqOff 8

/-- The word a status read returns (R36, R40). While BUSY = 1, BUSY reads 1, reserved bits read 0 and every other bit is
the free value of this read (R196). -/
def State.srWord (s : State) (i : BitVec 2) : Word :=
  if s.busy then
    match i.toNat with
    | 0 => (Config.freeStatus s.statusDraws &&& 0x000000FF) ||| 0x00000100
    | 1 => Config.freeStatus s.statusDraws
    | 2 => Config.freeStatus s.statusDraws &&& 0x0000FFFF
    | _ => 0
  else
    match i.toNat with
    | 0 => s.statusWord
    | 1 => s.configWord
    | 2 => s.positionWord
    | _ => 0

/-- `ERR <- 0`, the last write of every successful command (R164). -/
def State.succeed (s : State) : State := { s with err := .success }

/-- capacity_bits = 1600 − 8 × RATE_BYTES (R25). -/
def State.capacityBits (s : State) : Nat := 1600 - 8 * s.rateBytes.toNat

end Sys2Proof.Machine
end

