-- ==== Sys2Proof/Machine/Operands.lean ====
section
/-!
DEFINITION. The operand streams: taking a command's payload from DIN and putting its output on DOUT (20_memory.md R52, R53).
-/

namespace Sys2Proof.Machine

/-- `let P = DinTake(n)` and what follows it (R52, R73). With `n` bytes on DIN the command runs on them; with fewer the
engine waits, BUSY = 1, and nothing is taken (R194). `waiting` is the command in progress meanwhile. -/
def dinTake (waiting : Activity) (n : Nat) (s : State) (run : List Byte → State → State) : State :=
  if n ≤ s.din.length then run (s.din.take n) { s with din := s.din.drop n, activity := .idle }
  else { s with activity := waiting }

/-- How many more bytes DOUT holds before the engine waits (R53). -/
def State.doutRoom (s : State) : Nat := s.doutDepth - s.dout.length

/-- `DoutPut(bs)` (R53): append as many bytes as there is room for; while some are left the engine waits, BUSY = 1 (R195). -/
def doutPut (bs : List Byte) (s : State) : State :=
  { s with
    dout := s.dout ++ bs.take s.doutRoom
    activity := if bs.length ≤ s.doutRoom then .idle else .output (bs.drop s.doutRoom) }

end Sys2Proof.Machine
end

