-- ==== Sys2Proof/Machine/Padding.lean ====
section
/-!
DEFINITION. Padding (42_padding.md): the bit-level rule of R120 and the byte form of R122 that finalization uses.
-/

namespace Sys2Proof.Machine

/-- The bits of a byte string in message order: bit 8j + i is bit i of byte j (R56). -/
def bitsOf (bs : List Byte) : List Bool := bs.flatMap fun b => (List.range 8).map b.getLsbD

/-- SUFFIX_BITS, the domain suffix of a mode, first appended bit first (R23, R121). -/
def suffixBits : Mode → List Bool
  | .fixed => [false, true]
  | .extendable => [true, true, true, true]

/-- The count j of zero bits in R120: the non-negative residue of −m − len(suffix) − 2 mod r. -/
def padZeros (r suffixLen m : Nat) : Nat := ((-(m : Int) - suffixLen - 2) % r).toNat

/-- Pad(r, suffix, m) = suffix ‖ 1 ‖ 0^j ‖ 1 (R120). -/
def padBits (r : Nat) (suffix : List Bool) (m : Nat) : List Bool :=
  suffix ++ [true] ++ List.replicate (padZeros r suffix.length m) false ++ [true]

/-- SFX, the suffix and the first pad bit as a byte (R122). -/
def sfx : Mode → Byte
  | .fixed => 0x06
  | .extendable => 0x1F

/-- `P[i] <- P[i] ^ v`. -/
def xorAt (i : Nat) (v : Byte) (p : List Byte) : List Byte := p.modify i (· ^^^ v)

/-- PadBlock(BUF) for a rate of `rate` bytes and len(BUF) < rate (R122). -/
def padBlock (rate : Nat) (mode : Mode) (buf : List Byte) : List Byte :=
  xorAt (rate - 1) 0x80 (xorAt buf.length (sfx mode) (buf ++ List.replicate (rate - buf.length) 0))

end Sys2Proof.Machine
end

