-- ==== Sys2Proof/Machine/Permutation.lean ====
section
/-!
DEFINITION. Keccak-f[1600]: the step mappings, the two constant tables and the 24 rounds (41_permutation.md).
Every step mapping is a function of its whole input (R108), so none depends on an order of writes.
-/

namespace Sys2Proof.Machine

/-- `ROTL64(v, n)` for n in 0..63, as R10 writes it. -/
def rotl64 (v : Lane) (n : Nat) : Lane := if n = 0 then v else (v <<< n) ||| (v >>> (64 - n))

/-- The column parity C[x] of R102. -/
def thetaC (A : Lanes) (x : Fin 5) : Lane := A.lane x 0 ^^^ A.lane x 1 ^^^ A.lane x 2 ^^^ A.lane x 3 ^^^ A.lane x 4

/-- D[x] of R102. -/
def thetaD (A : Lanes) (x : Fin 5) : Lane := thetaC A (x + 4) ^^^ rotl64 (thetaC A (x + 1)) 1

/-- Theta (R102). -/
def theta (A : Lanes) : Lanes := Lanes.of fun x y => A.lane x y ^^^ thetaD A x

/-- The rotation-offset table, one row per y, columns x = 0..4 (R104, R32). -/
def rhoTable : Five (Five Nat) :=
  ⟨⟨0, 1, 62, 28, 27⟩,
   ⟨36, 44, 6, 55, 20⟩,
   ⟨3, 10, 43, 25, 39⟩,
   ⟨41, 45, 15, 21, 8⟩,
   ⟨18, 2, 61, 56, 14⟩⟩

/-- RHO[x,y] (R104). -/
def rhoOffset (x y : Fin 5) : Nat := (rhoTable.get y).get x

/-- Rho as the lane-wise rotation by the table (R103, R104). -/
def rho (A : Lanes) : Lanes := Lanes.of fun x y => rotl64 (A.lane x y) (rhoOffset x y)

/-- Pi (R105). -/
def piStep (A : Lanes) : Lanes := Lanes.of fun x y => A.lane (x + 3 * y) x

/-- Chi (R106). -/
def chi (A : Lanes) : Lanes := Lanes.of fun x y => A.lane x y ^^^ (~~~(A.lane (x + 1) y) &&& A.lane (x + 2) y)

/-- The round-constant table RC[0..23] (R109, R32). -/
def rcTable : List Lane :=
  [0x0000000000000001, 0x0000000000008082, 0x800000000000808A, 0x8000000080008000,
   0x000000000000808B, 0x0000000080000001, 0x8000000080008081, 0x8000000000008009,
   0x000000000000008A, 0x0000000000000088, 0x0000000080008009, 0x000000008000000A] ++
  [0x000000008000808B, 0x800000000000008B, 0x8000000000008089, 0x8000000000008003,
   0x8000000000008002, 0x8000000000000080, 0x000000000000800A, 0x800000008000000A,
   0x8000000080008081, 0x8000000000008080, 0x0000000080000001, 0x8000000080008008]

/-- Iota with the round constant given (R107). -/
def iota (A : Lanes) (rc : Lane) : Lanes :=
  Lanes.of fun x y => if x = 0 ∧ y = 0 then A.lane x y ^^^ rc else A.lane x y

/-- One round with the round constant given (R101). -/
def rnd (A : Lanes) (rc : Lane) : Lanes := iota (chi (piStep (rho (theta A)))) rc

/-- KeccakF(A): the rounds ir = 0, ..., 23 in that order (R100). -/
def keccakF (A : Lanes) : Lanes := rcTable.foldl rnd A

end Sys2Proof.Machine
end

