-- ==== Sys2Proof/Machine/Serializer.lean ====
section
/-!
DEFINITION. The lane serializer: the 200-byte view of the state register (20_memory.md R54, 40_serializer.md R90, R91).
-/

namespace Sys2Proof.Machine

/-- Lane number i of the lane order of R54: x = i mod 5, y = i div 5 (i in 0..24). -/
def laneAt (A : Lanes) (i : Nat) : Lane := A.lane (Fin.ofNat 5 (i % 5)) (Fin.ofNat 5 (i / 5))

/-- Byte k of the byte view: bits 8(k mod 8)+7 down to 8(k mod 8) of lane k div 8 (R54, R90). -/
def byteAt (A : Lanes) (k : Nat) : Byte := (laneAt A (k / 8)).extractLsb' (8 * (k % 8)) 8

/-- StateToBytes(A): S[0] first (R90). -/
def stateToBytes (A : Lanes) : List Byte := (List.range 200).map (byteAt A)

/-- The 64-bit value of up to 8 bytes, least significant first: the sum of s[j] × 2^(8j) (R91). -/
def leLane : List Byte → Lane
  | [] => 0
  | b :: bs => b.setWidth 64 ||| (leLane bs <<< 8)

/-- StateFromBytes(s) for a 200-byte string s (R91). -/
def stateFromBytes (s : List Byte) : Lanes :=
  Lanes.of fun x y => leLane ((s.drop (8 * (5 * y.val + x.val))).take 8)

/-- XOR a block onto the first bytes of a byte string; the bytes beyond the block stay (R124, R132). -/
def xorOnto : List Byte → List Byte → List Byte
  | s :: ss, b :: bs => (s ^^^ b) :: xorOnto ss bs
  | ss, [] => ss
  | [], _ :: _ => []

end Sys2Proof.Machine
end

