-- ==== Sys2Proof/Machine/Ops.lean ====
section
/-!
DEFINITION. The shared operations of the commands: raising an error (60_exceptions.md), absorbing a block, finalization and
squeezing (42_padding.md, 43_sponge.md). KECCAK-CORE's only exception is the error result: there is no handler, no saved
program counter and no return (R167), so `raiseError` stands alone.
-/

namespace Sys2Proof.Machine

/-- `raise Error(code)` (R160): ERR and STICKY are written and nothing else. -/
def raiseError (code : ErrCode) (s : State) : State := { s with err := code, sticky := true }

/-- AbsorbBlock(B): XOR the block onto the first bytes of the byte view and permute (R132). -/
def absorbBlock (block : List Byte) (A : Lanes) : Lanes := keccakF (stateFromBytes (xorOnto (stateToBytes A) block))

/-- The loop of ABSORB over the payload bytes, on A and BUF alone (R131). -/
def absorbBytes (rate : Nat) : List Byte → Lanes → List Byte → Lanes × List Byte
  | [], A, buf => (A, buf)
  | b :: p, A, buf =>
    if buf.length + 1 = rate then absorbBytes rate p (absorbBlock (buf ++ [b]) A) []
    else absorbBytes rate p A (buf ++ [b])

/-- Finalize() (R124): pad, absorb the last block, permute, enter Squeezing at offset 0. -/
def finalize (s : State) : State :=
  { s with
    A := absorbBlock (padBlock s.rateBytes.toNat s.mode s.buf) s.A
    buf := []
    phase := .squeezing
    sqOff := 0 }

/-- Finalize when the instance is still in Absorbing (R130, R134, R138). -/
def enterSqueezing (s : State) : State :=
  match s.phase with
  | .absorbing => finalize s
  | .squeezing => s

/-- The result of `SqueezeBytes`: the bytes, and A and SQ_OFF after the last of them. -/
structure Squeezed where
  bytes : List Byte
  A : Lanes
  sqOff : BitVec 8
  deriving DecidableEq, Repr

/-- SqueezeBytes(n) (R136), on A and SQ_OFF alone: permute only when another byte is needed and the block is used up. -/
def squeezeBytes (rate : BitVec 8) : Nat → Lanes → BitVec 8 → Squeezed
  | 0, A, off => ⟨[], A, off⟩
  | n + 1, A, off =>
    let A' := if off = rate then keccakF A else A
    let off' := if off = rate then 0 else off
    let r := squeezeBytes rate n A' (off' + 1)
    ⟨byteAt A' off'.toNat :: r.bytes, r.A, r.sqOff⟩

/-- `DoutPut(SqueezeBytes(n)); ERR <- 0`, the common end of SQUEEZE and DIGEST (R134, R138). -/
def emitSqueezed (n : Nat) (s : State) : State :=
  let r := squeezeBytes s.rateBytes n s.A s.sqOff
  (doutPut r.bytes { s with A := r.A, sqOff := r.sqOff }).succeed

end Sys2Proof.Machine
end

