-- ==== Sys2Proof/Machine/Presets.lean ====
section
/-!
DEFINITION. The six parameter presets (44_presets.md R151) and their lookup (R152).
-/

namespace Sys2Proof.Machine

/-- One row of PRESETS (R151). -/
structure Preset where
  family : Family
  level : Nat
  rateBytes : BitVec 8
  digestBytes : BitVec 8
  deriving DecidableEq, Repr

/-- PRESETS, in the order of R151: SHA3-224, -256, -384, -512, SHAKE128, SHAKE256. -/
def presetTable : List Preset :=
  [⟨.sha3, 224, 144, 28⟩,
   ⟨.sha3, 256, 136, 32⟩,
   ⟨.sha3, 384, 104, 48⟩,
   ⟨.sha3, 512, 72, 64⟩,
   ⟨.shake, 128, 168, 0⟩,
   ⟨.shake, 256, 136, 0⟩]

/-- The preset of (fam, level), if the pair is in PRESETS (R152, R153). -/
def preset? (fam : Family) (level : Nat) : Option Preset :=
  presetTable.find? fun p => p.family = fam && p.level = level

/-- `MODE <- fam` (R150): 0 Fixed for SHA3, 1 Extendable for SHAKE. -/
def modeOf : Family → Mode
  | .sha3 => .fixed
  | .shake => .extendable

end Sys2Proof.Machine
end

