-- ==== Sys2Proof/Machine/Init.lean ====
section
/-!
DEFINITION. INIT (44_presets.md R150).
-/

namespace Sys2Proof.Machine

/-- A new instance with the given preset (R150, R155). -/
def beginInstance (p : Preset) (s : State) : State :=
  { s with
    mode := modeOf p.family
    level := BitVec.ofNat 16 p.level
    rateBytes := p.rateBytes
    digestBytes := p.digestBytes
    configured := true
    A := Lanes.zero
    buf := []
    phase := .absorbing
    sqOff := 0
    sticky := false
    err := .success }

/-- INIT(fam, level) (R150): legal in every state (R154); an unsupported pair leaves the old instance (R152). -/
def execInit (fam : Family) (level : Nat) (s : State) : Host.Outcome State Fault Refusal :=
  match preset? fam level with
  | some p => .next (beginInstance p s)
  | none => .next (raiseError .invalidSecurityLevel s)

end Sys2Proof.Machine
end

