-- ==== Sys2Proof/Machine/Raw.lean ====
section
/-!
DEFINITION. The raw state commands PERMUTE, SLOAD and SREAD (41_permutation.md R111, 40_serializer.md R93, R94).
They act on A whatever the phase and the configuration are (R198).
-/

namespace Sys2Proof.Machine

/-- PERMUTE() (R111). -/
def execPermute (s : State) : Host.Outcome State Fault Refusal :=
  .next (State.succeed { s with A := keccakF s.A })

/-- SLOAD once its payload `p` has been taken (R93). -/
def sloadTaken (p : List Byte) (s : State) : State :=
  if p.length = 200 then State.succeed { s with A := stateFromBytes p } else raiseError .invalidLength s

/-- SLOAD(n) (R93): the payload is taken whether or not the command succeeds (R73, R160). -/
def execSload (n : Nat) (s : State) : Host.Outcome State Fault Refusal :=
  .next (dinTake (.payload (.sload n)) n s sloadTaken)

/-- SREAD() (R94). -/
def execSread (s : State) : Host.Outcome State Fault Refusal :=
  .next (doutPut (stateToBytes s.A) s).succeed

end Sys2Proof.Machine
end

