-- ==== Sys2Proof/Machine/Sponge.lean ====
section
/-!
DEFINITION. The sponge commands ABSORB, SQUEEZE and DIGEST (43_sponge.md). The checks stand in the order of R162, R163;
IllegalCommand is checked at decoding.
-/

namespace Sys2Proof.Machine

/-- ABSORB once its payload `p` has been taken (R131). -/
def absorbTaken (p : List Byte) (s : State) : State :=
  if s.configured = false then raiseError .notConfigured s
  else if s.phase = .squeezing then raiseError .invalidPhase s
  else
    let r := absorbBytes s.rateBytes.toNat p s.A s.buf
    State.succeed { s with A := r.1, buf := r.2 }

/-- ABSORB(n) (R131): the payload is taken whether or not the command succeeds (R73, R160). -/
def execAbsorb (n : Nat) (s : State) : Host.Outcome State Fault Refusal :=
  .next (dinTake (.payload (.absorb n)) n s absorbTaken)

/-- SQUEEZE(n) (R134, R135): legal in both phases and both modes (R140). -/
def execSqueeze (n : Nat) (s : State) : Host.Outcome State Fault Refusal :=
  if s.configured = false then .next (raiseError .notConfigured s)
  else .next (emitSqueezed n (enterSqueezing s))

/-- DIGEST() (R138): SQUEEZE of DIGEST_BYTES bytes on a Fixed instance; a failing DIGEST does not finalize. -/
def execDigest (s : State) : Host.Outcome State Fault Refusal :=
  if s.configured = false then .next (raiseError .notConfigured s)
  else if s.mode = .extendable then .next (raiseError .invalidMode s)
  else .next (emitSqueezed s.digestBytes.toNat (enterSqueezing s))

end Sys2Proof.Machine
end

