-- ==== Sys2Proof/Machine/Dispatch.lean ====
section
/-!
DEFINITION. One arm per command: the meaning of each constructor of Instr (R74).
-/

namespace Sys2Proof.Machine

def exec (i : Instr) (s : State) : Host.Outcome State Fault Refusal :=
  match i with
  | .init fam level => Sys2Proof.Machine.execInit fam level s
  | .absorb n => Sys2Proof.Machine.execAbsorb n s
  | .squeeze n => Sys2Proof.Machine.execSqueeze n s
  | .digest => Sys2Proof.Machine.execDigest s
  | .permute => Sys2Proof.Machine.execPermute s
  | .sload n => Sys2Proof.Machine.execSload n s
  | .sread => Sys2Proof.Machine.execSread s

end Sys2Proof.Machine
end

