-- ==== Sys2Proof/Machine/Engine.lean ====
section
/-!
DEFINITION. One move of the engine: accepting a command word, or going on with a command that waits (20_memory.md R51, R60,
70_reset_and_hazards.md R193 to R195).
-/

namespace Sys2Proof.Machine

/-- An accepted illegal word: its PayloadLen bytes are taken, then it completes with IllegalCommand (R73, R75, R160). -/
def runIllegal (n : Nat) (s : State) : State :=
  dinTake (.discard n) n s fun _ t => raiseError .illegalCommand t

/-- Run an accepted word (R77). -/
def runWord (w : Word) (s : State) : Host.Outcome State Fault Refusal :=
  match decode w with
  | .ok i => exec i s
  | .error _ => .next (runIllegal (payloadLen w) s)

/-- One move of the engine. Idle, it accepts the word on the channel, if there is one (R51); otherwise it holds its state
(R172). With a command in progress it accepts no word (R193) and goes on with that command. -/
def engineStep (s : State) : Host.Outcome State Fault Refusal :=
  match s.activity with
  | .idle =>
    match s.chan with
    | none => .next s
    | some w => runWord w { s with chan := none }
  | .payload i => exec i s
  | .discard n => .next (runIllegal n s)
  | .output rest => .next (doutPut rest s)

end Sys2Proof.Machine
end

