-- ==== Sys2Proof/Machine/Ports.lean ====
section
/-!
DEFINITION. What the host does at the ports and the reset input (20_memory.md R50 to R53, 10_state.md R36,
70_reset_and_hazards.md R190, R191).
-/

namespace Sys2Proof.Machine

/-- The reset input (R190, R191): every register of R42 at its reset value, both streams flushed, a command in progress
abandoned. A word still waiting on the channel is the host's and stays (notes/assumptions/5.md). -/
def assertReset (s : State) : State :=
  { State.reset with
    chan := s.chan
    doutDepth := s.doutDepth
    statusDraws := s.statusDraws
    host := s.host }

/-- A status read (R36): the host receives the word; nothing of the engine changes. A read made while BUSY = 1 uses up one
free value (R196). -/
def readStatus (i : BitVec 2) (s : State) : State :=
  { s with
    statusDraws := if s.busy then s.statusDraws + 1 else s.statusDraws
    host := { s.host with gotStatus := s.host.gotStatus ++ [s.srWord i] } }

/-- The host takes up to `n` bytes from DOUT, oldest first (R53, R63). -/
def drain (n : Nat) (s : State) : State :=
  { s with
    dout := s.dout.drop n
    host := { s.host with gotBytes := s.host.gotBytes ++ s.dout.take n } }

/-- Bytes arrive on DIN behind those already there (R52). -/
def send (bs : List Byte) (s : State) : State := { s with din := s.din ++ bs }

/-- The host presents a word: the channel holds one word, so a host whose earlier word still waits must wait (R193). -/
def present (w : Word) (s : State) : Option State :=
  match s.chan with
  | none => some { s with chan := some w }
  | some _ => none

/-- One turn of the machine whose script is `a :: rest`: the host acts, or, where it is idle or must wait, the engine moves. -/
def hostTurn (a : HostAct) (rest : List HostAct) (s : State) : Host.Outcome State Fault Refusal :=
  let s' := { s with host := { s.host with script := rest } }
  match a with
  | .present w =>
    match present w s' with
    | some t => .next t
    | none => engineStep s
  | .send bs => .next (send bs s')
  | .drain n => .next (drain n s')
  | .readStatus i => .next (readStatus i s')
  | .reset => .next (assertReset s')
  | .idle => engineStep s'

end Sys2Proof.Machine
end

