-- ==== Sys2Proof/Machine/Step.lean ====
section
/-!
DEFINITION. One step of the machine: the next turn of the host's script, or, when the script is at its end, one move of the
engine. A command whose payload is there and whose output has room is one step (R7).
-/

namespace Sys2Proof.Machine

def step (s : State) : Host.Outcome State Fault Refusal :=
  match s.host.script with
  | [] => engineStep s
  | a :: rest => hostTurn a rest s

/-- `s` with the word `w` (its low `nbits` bits) presented on the command channel, the engine idle and the host silent, so
that the very next step accepts and runs exactly that word. -/
def State.withFetchWord (s : State) (nbits w : Nat) : State :=
  { s with
    chan := some (BitVec.ofNat 32 (w % 2 ^ nbits))
    activity := .idle
    host := { s.host with script := [] } }

end Sys2Proof.Machine
end

