-- ==== Sys2Proof/Machine/Reference.lean ====
section
/-!
DEFINITION. The other forms in which the spec states the same functions, for the claims to compare the engine with: the rho
walk (R103), the round-constant generator (R109), the source's block form of ABSORB (R131), the output stream (R137) and the
one-shot sponge over bit strings (R14, R120, R132), and several commands in a row (R60). The engine runs none of them.
-/

namespace Sys2Proof.Machine

/-- `A[x,y] <- v`, every other lane kept. -/
def setLane (A : Lanes) (x y : Fin 5) (v : Lane) : Lanes :=
  Lanes.of fun x' y' => if x' = x ∧ y' = y then v else A.lane x' y'

/-- The loop of R103 with `k` steps to go, at step `t` and position (x, y), over the input `A` and the lanes written so far. -/
def rhoWalkFrom : Nat → Nat → Fin 5 → Fin 5 → Lanes → Lanes → Lanes
  | 0, _, _, _, _, out => out
  | k + 1, t, x, y, A, out =>
    rhoWalkFrom k (t + 1) y (2 * x + 3 * y) A (setLane out x y (rotl64 (A.lane x y) ((t + 1) * (t + 2) / 2 % 64)))

/-- Rho as the walk of R103: 24 steps from (1, 0). -/
def rhoWalk (A : Lanes) : Lanes := rhoWalkFrom 24 0 1 0 A A

/-- One step of the LFSR of R109 on R[0..7]: `R = 0‖R; R[0]^=R[8]; R[4]^=R[8]; R[5]^=R[8]; R[6]^=R[8]; R = R[0..7]`. -/
def lfsrStep : List Bool → List Bool
  | [r0, r1, r2, r3, r4, r5, r6, r7] => [r7, r0, r1, r2, r3 ^^ r7, r4 ^^ r7, r5 ^^ r7, r6]
  | r => r

/-- rc(t): bit 0 of R = 10000000 stepped t mod 255 times (R109). -/
def rcBit (t : Nat) : Bool :=
  (Nat.repeat lfsrStep (t % 255) [true, false, false, false, false, false, false, false]).headD false

/-- RC[ir] as R109 generates it: bit 2^j − 1 is rc(j + 7·ir) for j in 0..6, every other bit 0. -/
def rcGenerated (ir : Nat) : Lane :=
  (List.range 7).foldl (fun v j => if rcBit (j + 7 * ir) then v ||| (1#64 <<< (2 ^ j - 1)) else v) 0

/-- A list cut into pieces of `k`, the last one possibly shorter; `fuel` bounds the number of pieces. -/
def chunksOf {α : Type} (k : Nat) : Nat → List α → List (List α)
  | 0, _ => []
  | _ + 1, [] => []
  | fuel + 1, a :: l => (a :: l).take k :: chunksOf k fuel ((a :: l).drop k)

/-- The source's loop of ABSORB: "while the buffer holds ≥ `rate_bytes`", absorb the next block (R131). -/
def absorbWhole (rate : Nat) : Nat → Lanes → List Byte → Lanes × List Byte
  | 0, A, buf => (A, buf)
  | fuel + 1, A, buf =>
    if rate ≤ buf.length then absorbWhole rate fuel (absorbBlock (buf.take rate) A) (buf.drop rate) else (A, buf)

/-- Byte k of the output stream of an instance that Finalize left with the lanes `A` (R137). -/
def streamByte (rate : Nat) (A : Lanes) (k : Nat) : Byte := byteAt (Nat.repeat keccakF (k / rate) A) (k % rate)

/-- Bit k of the state as a bit string: bit k mod 8 of S[k div 8] (R55, R56). -/
def stateBit (A : Lanes) (k : Nat) : Bool := (laneAt A (k / 64)).getLsbD (k % 64)

/-- The state with a bit string XORed onto its first bits (R56, R132). -/
def xorBits (A : Lanes) (block : List Bool) : Lanes :=
  Lanes.of fun x y =>
    BitVec.ofFnLE fun z : Fin 64 => (A.lane x y).getLsbD z.val ^^ block.getD (64 * (5 * y.val + x.val) + z.val) false

/-- The sponge over the bit string of a message: pad it (R120), absorb it in blocks of r bits from the zero state (R155). -/
def spongeAbsorb (r : Nat) (suffix message : List Bool) : Lanes :=
  let padded := message ++ padBits r suffix message.length
  (chunksOf r padded.length padded).foldl (fun A block => keccakF (xorBits A block)) Lanes.zero

/-- Bit k of the sponge's output: bit k mod r of the state after k div r further permutations (R14, R137). -/
def spongeOutBit (r : Nat) (A : Lanes) (k : Nat) : Bool := stateBit (Nat.repeat keccakF (k / r) A) (k % r)

/-- The first `d` output bits of the sponge with rate r bits and the given suffix on a message of bits. -/
def sponge (r : Nat) (suffix message : List Bool) (d : Nat) : List Bool :=
  (List.range d).map (spongeOutBit r (spongeAbsorb r suffix message))

/-- Several commands in a row, each on the state the one before it left (R60). -/
def execAll : List Instr → State → Host.Outcome State Fault Refusal
  | [], s => .next s
  | i :: is, s =>
    match exec i s with
    | .next t => execAll is t
    | .fault r => .fault r
    | .refused r => .refused r

end Sys2Proof.Machine
end

