-- ==== Sys2Proof/Machine/Assembler.lean ====
section
/-!
DEFINITION. The assembler of KC-IF v1 (30_encoding.md R80 to R86): source lines, the transfers the host makes for them, and
the reading of a line of text. The engine runs none of this; it is how a host writes its script.
-/

namespace Sys2Proof.Machine

/-- A source line (R81 to R86). A payload with `none` takes its count from the list. -/
inductive AsmLine where
  | init (fam : Family) (level : Nat)
  | absorb (n : Option Nat) (payload : List Byte)
  | squeeze (n : Nat)
  | digest
  | permute
  | sload (n : Option Nat) (payload : List Byte)
  /-- `SLOAD n, zero` (R84). -/
  | sloadZero (n : Nat)
  | sread
  /-- `.word value` (R85). -/
  | word (value : Nat)
  /-- `.bytes [..]` (R85). -/
  | bytes (bs : List Byte)
  /-- The pseudo-command `SHA3 level, msg` (R86). -/
  | sha3 (level : Nat) (msg : List Byte)
  /-- The pseudo-command `SHAKE level, msg, output_bit_length` (R86). -/
  | shake (level : Nat) (msg : List Byte) (bits : Nat)
  deriving DecidableEq, Repr

/-- The largest count one command carries (R71). -/
def lenMax : Nat := 16777215

/-- The transfers of one command: the word, then the payload bytes (R80). A command no word can express is rejected. -/
def emitCommand (i : Instr) (payload : List Byte) : Option (List HostAct) :=
  if i.wf then
    match payload with
    | [] => some [.present (encode i)]
    | b :: bs => some [.present (encode i), .send (b :: bs)]
  else none

/-- A command with its own count. R82 rejects an ABSORB line whose list does not hold exactly that many bytes; that an SLOAD line is
rejected likewise is the model's choice, where R84 is silent (notes/assumptions/21.md). Without a count, n is taken from the list; that
an SLOAD list may then be of any length and not only of 200 bytes is the model's choice too (23.md). -/
def emitCounted (i : Nat → Instr) (n : Option Nat) (payload : List Byte) : Option (List HostAct) :=
  if n.getD payload.length = payload.length then emitCommand (i payload.length) payload else none

/-- The ABSORB commands of a message: pieces of at most `lenMax` bytes, none for the empty message (R86). That every piece but the last
has exactly `lenMax` bytes is the model's choice (notes/assumptions/22.md). -/
def absorbPieces (msg : List Byte) : List (Instr × List Byte) :=
  (chunksOf lenMax msg.length msg).map fun p => (.absorb p.length, p)

/-- Output counts of at most `lenMax` each that add up to `n` (R86). That every count but the last is exactly `lenMax` is the model's
choice (notes/assumptions/22.md), and that there is one even for n = 0 its reading (16.md). -/
def squeezeCounts : Nat → Nat → List Nat
  | 0, n => [n]
  | fuel + 1, n => if n ≤ lenMax then [n] else lenMax :: squeezeCounts fuel (n - lenMax)

/-- The transfers of several commands. -/
def emitAll : List (Instr × List Byte) → Option (List HostAct)
  | [] => some []
  | c :: cs =>
    match emitCommand c.1 c.2, emitAll cs with
    | some a, some b => some (a ++ b)
    | _, _ => none

/-- The commands that the pseudo-command SHA3 stands for (R86). -/
def sha3Commands (level : Nat) (msg : List Byte) : List (Instr × List Byte) :=
  (.init .sha3 level, []) :: absorbPieces msg ++ [(.digest, [])]

/-- The commands that the pseudo-command SHAKE with `n` output bytes stands for (R86). -/
def shakeCommands (level : Nat) (msg : List Byte) (n : Nat) : List (Instr × List Byte) :=
  (.init .shake level, []) :: absorbPieces msg ++ (squeezeCounts (n / lenMax) n).map fun k => (.squeeze k, [])

/-- The host's transfers for a line, or a rejection (R81 to R86). -/
def assemble : AsmLine → Option (List HostAct)
  | .init fam level => emitCommand (.init fam level) []
  | .absorb n payload => emitCounted .absorb n payload
  | .squeeze n => emitCommand (.squeeze n) []
  | .digest => emitCommand .digest []
  | .permute => emitCommand .permute []
  | .sload n payload => emitCounted .sload n payload
  | .sloadZero n => emitCommand (.sload n) (List.replicate n 0)
  | .sread => emitCommand .sread []
  | .word value => if value < 2 ^ 32 then some [.present (BitVec.ofNat 32 value)] else none
  | .bytes bs => some [.send bs]
  | .sha3 level msg => emitAll (sha3Commands level msg)
  | .shake level msg bits => if bits % 8 = 0 then emitAll (shakeCommands level msg (bits / 8)) else none

/-- The host's script for a program, one line after another. -/
def assembleAll : List AsmLine → Option (List HostAct)
  | [] => some []
  | l :: ls =>
    match assemble l, assembleAll ls with
    | some a, some b => some (a ++ b)
    | _, _ => none

/-! The text of a line (R80): mnemonic first, operands separated by commas, `;` starting a comment, a payload as bracketed hex
pairs or as quoted ASCII text, numbers decimal unless they begin with 0x. -/

/-- The tokens of a line. -/
inductive AsmToken where
  | name (cs : List Char)
  | num (n : Nat)
  | comma
  | payload (bs : List Byte)
  deriving DecidableEq, Repr

/-- The value of a digit in base 16. -/
def hexDigit? (c : Char) : Option Nat :=
  if '0' ≤ c ∧ c ≤ '9' then some (c.toNat - 48)
  else if 'a' ≤ c ∧ c ≤ 'f' then some (c.toNat - 87)
  else if 'A' ≤ c ∧ c ≤ 'F' then some (c.toNat - 55)
  else none

/-- The value of a digit string in base `base` (10 or 16), continuing from `acc`. -/
def digits? (base : Nat) : Nat → List Char → Option Nat
  | acc, [] => some acc
  | acc, c :: cs =>
    match hexDigit? c with
    | some d => if d < base then digits? base (acc * base + d) cs else none
    | none => none

/-- A number: decimal, or hexadecimal after 0x (R80). -/
def number? : List Char → Option Nat
  | [] => none
  | '0' :: 'x' :: c :: cs => digits? 16 0 (c :: cs)
  | cs => digits? 10 0 cs

/-- A blank between tokens or bytes. -/
def isBlank (c : Char) : Bool := c = ' ' || c = '\t'

/-- A character of a name or a number. -/
def isWordChar (c : Char) : Bool := c.isAlphanum || c = '.' || c = '_'

/-- Hex pairs up to the closing bracket, and the text behind it (R80). That a blank may stand between two pairs and need not is the
model's choice (notes/assumptions/15.md). -/
def hexPairs : List Char → Option (List Byte × List Char)
  | [] => none
  | ']' :: cs => some ([], cs)
  | [_] => none
  | c :: d :: cs =>
    if isBlank c then hexPairs (d :: cs)
    else
      match hexDigit? c, hexDigit? d, hexPairs cs with
      | some h, some l, some (bs, rest) => some (BitVec.ofNat 8 (16 * h + l) :: bs, rest)
      | _, _, _ => none

/-- Quoted ASCII text up to the closing quote, and the text behind it (R80). -/
def quoted : List Char → Option (List Byte × List Char)
  | [] => none
  | '"' :: cs => some ([], cs)
  | c :: cs =>
    if c.toNat < 128 then
      match quoted cs with
      | some (bs, rest) => some (BitVec.ofNat 8 c.toNat :: bs, rest)
      | none => none
    else none

/-- The tokens of a line; `fuel` is at least its length. -/
def tokens : Nat → List Char → Option (List AsmToken)
  | 0, _ => some []
  | _ + 1, [] => some []
  | fuel + 1, c :: cs =>
    if c = ';' then some []
    else if isBlank c then tokens fuel cs
    else if c = ',' then (tokens fuel cs).map (.comma :: ·)
    else if c = '[' then
      match hexPairs cs with
      | some (bs, rest) => (tokens fuel rest).map (.payload bs :: ·)
      | none => none
    else if c = '"' then
      match quoted cs with
      | some (bs, rest) => (tokens fuel rest).map (.payload bs :: ·)
      | none => none
    else if isWordChar c then
      let w := (c :: cs).takeWhile isWordChar
      let rest := (c :: cs).dropWhile isWordChar
      if '0' ≤ c ∧ c ≤ '9' then
        match number? w with
        | some n => (tokens fuel rest).map (.num n :: ·)
        | none => none
      else (tokens fuel rest).map (.name w :: ·)
    else none

/-- The line that a token list spells (R81 to R86); a line without tokens spells none. -/
def lineOf : List AsmToken → Option (Option AsmLine)
  | [] => some none
  | [.name ['I', 'N', 'I', 'T'], .name ['S', 'H', 'A', '3'], .comma, .num l] => some (some (.init .sha3 l))
  | [.name ['I', 'N', 'I', 'T'], .name ['S', 'H', 'A', 'K', 'E'], .comma, .num l] => some (some (.init .shake l))
  | [.name ['A', 'B', 'S', 'O', 'R', 'B'], .num n, .comma, .payload bs] => some (some (.absorb (some n) bs))
  | [.name ['A', 'B', 'S', 'O', 'R', 'B'], .num n] => some (some (.absorb (some n) []))
  | [.name ['A', 'B', 'S', 'O', 'R', 'B'], .payload bs] => some (some (.absorb none bs))
  | [.name ['S', 'Q', 'U', 'E', 'E', 'Z', 'E'], .num n] => some (some (.squeeze n))
  | [.name ['D', 'I', 'G', 'E', 'S', 'T']] => some (some .digest)
  | [.name ['P', 'E', 'R', 'M', 'U', 'T', 'E']] => some (some .permute)
  | [.name ['S', 'L', 'O', 'A', 'D'], .num n, .comma, .payload bs] => some (some (.sload (some n) bs))
  | [.name ['S', 'L', 'O', 'A', 'D'], .payload bs] => some (some (.sload none bs))
  | [.name ['S', 'L', 'O', 'A', 'D'], .num n, .comma, .name ['z', 'e', 'r', 'o']] => some (some (.sloadZero n))
  | [.name ['S', 'R', 'E', 'A', 'D']] => some (some .sread)
  | [.name ['.', 'w', 'o', 'r', 'd'], .num n] => some (some (.word n))
  | [.name ['.', 'b', 'y', 't', 'e', 's'], .payload bs] => some (some (.bytes bs))
  | [.name ['S', 'H', 'A', '3'], .num l, .comma, .payload bs] => some (some (.sha3 l bs))
  | [.name ['S', 'H', 'A', 'K', 'E'], .num l, .comma, .payload bs, .comma, .num d] => some (some (.shake l bs d))
  | _ => none

/-- Read one line of text: a rejection, an empty line, or a source line. -/
def readLine (cs : List Char) : Option (Option AsmLine) := (tokens cs.length cs).bind lineOf

end Sys2Proof.Machine
end

