-- ==== Sys2Proof/Safety.lean ====
section
/-!
DEFINITION. What a state the machine can be in looks like (10_state.md R41), and what a safe run is.
-/

namespace Sys2Proof.Machine

/-- The command in progress, if any, is one the engine can be waiting in. -/
def Activity.legal : Activity → Prop
  | .idle => True
  | .payload i => (∃ n, i = .absorb n ∨ i = .sload n) ∧ i.wf = true
  | .discard n => n < 2 ^ 24
  | .output rest => rest ≠ []

/-- The invariants of R41, with what the model adds for a command in progress and for DOUT (R53). They hold between two
commands and while one waits. ERR ∈ {0..6} holds by the type of `err`. -/
structure Inv (s : State) : Prop where
  /-- CONFIGURED = 0: no instance, everything of it 0. -/
  unconfigured : s.configured = false →
    s.mode = .fixed ∧ s.level = 0 ∧ s.rateBytes = 0 ∧ s.digestBytes = 0 ∧ s.phase = .absorbing ∧ s.buf = [] ∧ s.sqOff = 0
  /-- CONFIGURED = 1: the configuration is one row of PRESETS. -/
  preset : s.configured = true →
    ∃ p ∈ presetTable, s.mode = modeOf p.family ∧ s.level = BitVec.ofNat 16 p.level ∧ s.rateBytes = p.rateBytes ∧
      s.digestBytes = p.digestBytes
  /-- PHASE = 0. -/
  absorbing : s.phase = .absorbing → s.sqOff = 0 ∧ (s.configured = true → s.buf.length < s.rateBytes.toNat)
  /-- PHASE = 1. -/
  squeezing : s.phase = .squeezing → s.buf = [] ∧ s.sqOff ≤ s.rateBytes
  /-- ERR ≠ 0 implies STICKY = 1. -/
  sticky : s.err ≠ .success → s.sticky = true
  /-- DOUT holds at most DOUT_DEPTH bytes, and DOUT_DEPTH is at least 1 (R8, R53). -/
  dout : s.dout.length ≤ s.doutDepth
  depth : 1 ≤ s.doutDepth
  activity : s.activity.legal

/-- A step is safe when the machine goes on: it neither faults nor refuses. -/
def goesOn (o : Host.Outcome State Fault Refusal) : Prop := ∃ t, o = .next t

/-- The output bytes of the command in progress that are not on DOUT yet. -/
def Activity.unplaced : Activity → List Byte
  | .idle => []
  | .payload _ => []
  | .discard _ => []
  | .output rest => rest

/-- Everything the engine has put out and the host has not lost to a reset, oldest first: the bytes the host has drained,
those on DOUT, and those waiting for room (R53, R61). -/
def State.outputStream (s : State) : List Byte := s.host.gotBytes ++ s.dout ++ s.activity.unplaced

/-- The bytes a command puts out that starts in state `s`: those of its DoutPut (R134, R138, R94), and none where a check of
R162 fails (R160) or the command has no output (R53, R78). -/
def commandOutput (i : Instr) (s : State) : List Byte :=
  let squeezed (n : Nat) := (squeezeBytes s.rateBytes n (enterSqueezing s).A (enterSqueezing s).sqOff).bytes
  match i with
  | .squeeze n => if s.configured then squeezed n else []
  | .digest => if s.configured && s.mode = .fixed then squeezed s.digestBytes.toNat else []
  | .sread => stateToBytes s.A
  | .init _ _ => []
  | .absorb _ => []
  | .permute => []
  | .sload _ => []

/-- A silent host's state with the engine idle and a word to accept, all of its payload on DIN. -/
def State.accepts (s : State) (w : Word) : Prop :=
  s.host.script = [] ∧ s.activity = .idle ∧ s.chan = some w ∧ payloadLen w ≤ s.din.length

/-- The turn of `s` is the engine's, and `s'` is `s` with the host's turn used up: the script is at its end, or the host is idle
for this turn, or it presents a word while the channel still holds one and must wait (R193). -/
def State.engineTurn (s s' : State) : Prop :=
  (s.host.script = [] ∧ s' = s) ∨
  (∃ rest, s.host.script = .idle :: rest ∧ s' = { s with host := { s.host with script := rest } }) ∨
  (∃ w rest, s.host.script = .present w :: rest ∧ s.chan ≠ none ∧ s' = s)

end Sys2Proof.Machine
end

