-- ==== Sys2Proof/Certificates/Slice0/Obligations.lean ====
section
/-!
DEFINITION. The statements about KECCAK-CORE for the provers. "Silent" below means that the host's script is at its end, so
that `step` is one move of the engine; a host turn has its own statements.
-/

open Sys2Proof Sys2Proof.Machine

/-! Reset and the host's ports -/

/-- R42: after reset every piece of state has the value of the table, seen through the model's state and its views. -/
def Obligations.ResetStateHoldsResetValues : Prop :=
  (∀ x y, State.reset.A.lane x y = 0) ∧ State.reset.buf = [] ∧ State.reset.bufLen = 0 ∧ State.reset.configured = false ∧
  State.reset.mode.bit = false ∧ State.reset.level = 0 ∧ State.reset.rateBytes = 0 ∧ State.reset.digestBytes = 0 ∧
  State.reset.phase = .absorbing ∧ State.reset.sqOff = 0 ∧ State.reset.err.bits = 0 ∧ State.reset.sticky = false ∧
  State.reset.busy = false ∧ State.reset.din = [] ∧ State.reset.dout = []

/-- R190, R191: whatever the engine is doing, the step in which the host asserts reset puts every register at its reset value,
flushes both streams and abandons a command in progress. -/
def Obligations.ResetInputRestoresResetValues : Prop :=
  ∀ (s : State) (rest : List HostAct), s.host.script = .reset :: rest →
    ∃ t, step s = .next t ∧
      (∀ x y, t.A.lane x y = 0) ∧ t.buf = [] ∧ t.configured = false ∧ t.mode = .fixed ∧ t.level = 0 ∧ t.rateBytes = 0 ∧
      t.digestBytes = 0 ∧ t.phase = .absorbing ∧ t.sqOff = 0 ∧ t.err = .success ∧ t.sticky = false ∧ t.busy = false ∧
      t.activity = .idle ∧ t.din = [] ∧ t.dout = []

/-- The reset input leaves the host's side alone. This is the model's choice, no rule's: what the host has received stays with it
(notes/assumptions/3.md), its further acts stay (2.md), a word it has presented and the engine has not accepted stays on the
channel (5.md), the OPEN parameter DOUT_DEPTH and the counter of free values are no registers (4.md, 6.md). -/
def Obligations.ResetInputLeavesTheHostSide : Prop :=
  ∀ (s : State) (rest : List HostAct), s.host.script = .reset :: rest →
    ∃ t, step s = .next t ∧ t.host = { s.host with script := rest } ∧ t.chan = s.chan ∧ t.doutDepth = s.doutDepth ∧
      t.statusDraws = s.statusDraws

/-- R52, R53, R63: a byte the host sends goes behind those on DIN; a byte it drains is the oldest on DOUT and leaves it; neither
touches anything else. (Transfers as turns of a script, and the record of what was received: notes/assumptions/2.md, 3.md.) -/
def Obligations.StreamTransfersKeepOrder : Prop :=
  ∀ (s : State) (rest : List HostAct),
    (∀ bs, s.host.script = .send bs :: rest →
      step s = .next { s with din := s.din ++ bs, host := { s.host with script := rest } }) ∧
    (∀ n, s.host.script = .drain n :: rest →
      ∃ got, got ++ s.dout.drop n = s.dout ∧ got.length = min n s.dout.length ∧
        step s = .next { s with
          dout := s.dout.drop n
          host := { s.host with script := rest, gotBytes := s.host.gotBytes ++ got } })

/-- R51, R193: the channel holds one word. A word the host presents goes on the free channel; while BUSY = 1 a waiting word stays
there, unaccepted, whatever turn it is (but a reset); an idle engine accepts it. (The channel as a field
of State, and that a reset leaves its word: notes/assumptions/1.md, 5.md.) -/
def Obligations.ChannelHoldsOneWord : Prop :=
  ∀ s : State,
    (∀ w rest, s.host.script = .present w :: rest → s.chan = none →
      step s = .next { s with chan := some w, host := { s.host with script := rest } }) ∧
    (∀ v, s.chan = some v → s.busy = true → (∀ rest, s.host.script ≠ .reset :: rest) →
      ∃ t, step s = .next t ∧ t.chan = some v) ∧
    (∀ v, s.chan = some v → s.activity = .idle → s.host.script = [] → ∃ t, step s = .next t ∧ t.chan = none)

/-- R36: a status read has no side effect on the engine or its streams, and the host receives the word SR[i]. (The model's counter
of free values is no state of the spec: notes/assumptions/6.md.) -/
def Obligations.StatusReadHasNoSideEffect : Prop :=
  ∀ (s : State) (i : BitVec 2) (rest : List HostAct), s.host.script = .readStatus i :: rest →
    ∃ d, step s = .next { s with
      statusDraws := d
      host := { s.host with script := rest, gotStatus := s.host.gotStatus ++ [s.srWord i] } } ∧
      (s.busy = false → d = s.statusDraws)

/-! Status registers -/

/-- R37, R38, R39, R161: while BUSY = 0 each field of SR[0], SR[1] and SR[2] holds its register, ERR by the numbers of R161. -/
def Obligations.StatusFieldsShowRegisters : Prop :=
  ∀ s : State, s.busy = false →
    (s.srWord 0).extractLsb' 0 4 =
      (match s.err with
      | .success => 0
      | .invalidSecurityLevel => 1
      | .invalidPhase => 2
      | .invalidMode => 3
      | .invalidLength => 4
      | .illegalCommand => 5
      | .notConfigured => 6) ∧
    (s.srWord 0).getLsbD 4 = s.sticky ∧
    (s.srWord 0).getLsbD 5 = s.configured ∧ (s.srWord 0).getLsbD 6 = decide (s.phase = .squeezing) ∧
    (s.srWord 0).getLsbD 7 = decide (s.mode = .extendable) ∧ (s.srWord 0).getLsbD 8 = false ∧
    (s.srWord 0).extractLsb' 9 23 = 0 ∧
    (s.srWord 1).extractLsb' 0 16 = s.level ∧ (s.srWord 1).extractLsb' 16 8 = s.rateBytes ∧
    (s.srWord 1).extractLsb' 24 8 = s.digestBytes ∧
    ((s.srWord 2).extractLsb' 0 8).toNat = s.buf.length % 256 ∧ (s.srWord 2).extractLsb' 8 8 = s.sqOff ∧
    (s.srWord 2).extractLsb' 16 16 = 0

/-- R40, R196: SR[3] and every reserved bit read 0, in every state, whatever the free values of R196 are. That they do so while
BUSY = 1 too, where R196 leaves every field but BUSY unspecified, is the model's choice of R40 over R196 (notes/assumptions/6.md). -/
def Obligations.ReservedStatusBitsReadZero : Prop :=
  ∀ s : State, s.srWord 3 = 0 ∧ (s.srWord 0).extractLsb' 9 23 = 0 ∧ (s.srWord 2).extractLsb' 16 16 = 0

/-- R31, R196: SR[0].BUSY reads 1 exactly while a command is in progress (BUSY as a view of it: notes/assumptions/12.md). -/
def Obligations.BusyBitShowsCommandInProgress : Prop :=
  ∀ s : State, (s.srWord 0).getLsbD 8 = decide (s.activity ≠ .idle)

/-! Encoding -/

/-- The words of 95_test_vectors.md ENC-1 to ENC-18, decoded. -/
def Obligations.VectorWordsDecodeAsListed : Prop :=
  decode 0x00010001 = .ok (.init .sha3 256) ∧ decode 0x00010011 = .ok (.init .shake 256) ∧
  decode 0x00008011 = .ok (.init .shake 128) ∧ decode 0x00000102 = .ok (.absorb 1) ∧
  decode 0x00002003 = .ok (.squeeze 32) ∧ decode 0x00000004 = .ok .digest ∧ decode 0x00000005 = .ok .permute ∧
  decode 0x0000C806 = .ok (.sload 200) ∧ decode 0x00000007 = .ok .sread ∧
  decode 0x00000000 = .error .reservedOpcode ∧ decode 0x00000008 = .error .reservedOpcode ∧
  decode 0xFFFFFF0F = .error .reservedOpcode ∧ decode 0x00000104 = .error .reservedField ∧
  decode 0x00000012 = .error .reservedField ∧ decode 0x00010021 = .error .reservedField ∧
  decode 0x00000312 = .error .reservedField ∧ payloadLen 0x00000312 = 3 ∧
  decode 0xFFFFFF02 = .ok (.absorb 16777215) ∧ decode 0x00006401 = .ok (.init .sha3 100)

/-- R75: a word is legal exactly when it matches the row of its opcode, and R71, R72: its operands are LEN as a number and FAM. -/
def Obligations.WordsDecodeByMaskAndMatch : Prop :=
  ∀ w : Word,
    (w &&& 0x000000EF = 0x00000001 → decode w = .ok (.init (if w.getLsbD 4 then .shake else .sha3) (w >>> 8).toNat)) ∧
    (w &&& 0x000000FF = 0x00000002 → decode w = .ok (.absorb (w >>> 8).toNat)) ∧
    (w &&& 0x000000FF = 0x00000003 → decode w = .ok (.squeeze (w >>> 8).toNat)) ∧
    (w = 0x00000004 → decode w = .ok .digest) ∧
    (w = 0x00000005 → decode w = .ok .permute) ∧
    (w &&& 0x000000FF = 0x00000006 → decode w = .ok (.sload (w >>> 8).toNat)) ∧
    (w = 0x00000007 → decode w = .ok .sread) ∧
    (w &&& 0x000000EF ≠ 0x00000001 → w &&& 0x000000FF ≠ 0x00000002 → w &&& 0x000000FF ≠ 0x00000003 →
      w ≠ 0x00000004 → w ≠ 0x00000005 → w &&& 0x000000FF ≠ 0x00000006 → w ≠ 0x00000007 → ∃ r, decode w = .error r)

/-- Every command an operand of 24 bits can express decodes from its own word, operands and all (R71, R75, R81 to R84). -/
def Obligations.EncodedCommandDecodesToItself : Prop := ∀ i : Instr, i.wf = true → decode (encode i) = .ok i

/-- Every legal word is the encoding of the command it decodes to, so each command has one word and no bit is dropped. -/
def Obligations.LegalWordIsEncodingOfItsCommand : Prop :=
  ∀ (w : Word) (i : Instr), decode w = .ok i → i.wf = true ∧ encode i = w

/-- R81 to R85: the transfers the assembler makes of a line: the word as the rule's formula, then the payload bytes. An ABSORB line whose
count is not the list's is rejected (R82). The model's own here: an SLOAD line is rejected likewise (notes/assumptions/21.md), and
without a count takes it from a list of any length (23.md); an empty list makes no DIN transfer, and SLOAD n, zero
stands for n zero bytes for every n (16.md); what no word can express is rejected (15.md). -/
def Obligations.AssemblerLinesEncode : Prop :=
  (∀ n : Nat, n < 2 ^ 24 →
    assemble (.init .sha3 n) = some [.present (BitVec.ofNat 32 (n * 256 + 0x01))] ∧
    assemble (.init .shake n) = some [.present (BitVec.ofNat 32 (n * 256 + 0x11))] ∧
    assemble (.squeeze n) = some [.present (BitVec.ofNat 32 (n * 256 + 0x03))]) ∧
  (∀ n : Nat, 2 ^ 24 ≤ n →
    assemble (.init .sha3 n) = none ∧ assemble (.init .shake n) = none ∧ assemble (.squeeze n) = none) ∧
  (assemble .digest = some [.present 0x00000004] ∧ assemble .permute = some [.present 0x00000005] ∧
    assemble .sread = some [.present 0x00000007]) ∧
  (∀ (n : Nat) (bs : List Byte), bs.length < 2 ^ 24 →
    assemble (.absorb (some n) bs) =
      (if n = bs.length then
        some (.present (BitVec.ofNat 32 (n * 256 + 0x02)) :: (if bs = [] then [] else [.send bs]))
      else none) ∧
    assemble (.sload (some n) bs) =
      (if n = bs.length then
        some (.present (BitVec.ofNat 32 (n * 256 + 0x06)) :: (if bs = [] then [] else [.send bs]))
      else none)) ∧
  (∀ bs : List Byte,
    assemble (.absorb none bs) = assemble (.absorb (some bs.length) bs) ∧
    assemble (.sload none bs) = assemble (.sload (some bs.length) bs) ∧
    (2 ^ 24 ≤ bs.length → ∀ n, assemble (.absorb n bs) = none ∧ assemble (.sload n bs) = none)) ∧
  assemble (.sloadZero 200) = some [.present 0x0000C806, .send (List.replicate 200 0)] ∧
  (∀ n : Nat, assemble (.sloadZero n) = assemble (.sload (some n) (List.replicate n 0))) ∧
  (∀ v : Nat, assemble (.word v) = if v < 2 ^ 32 then some [.present (BitVec.ofNat 32 v)] else none) ∧
  (∀ bs : List Byte, assemble (.bytes bs) = some [.send bs])

/-! The step -/

/-- On an engine's turn (which turns are the engine's is the model's choice: notes/assumptions/13.md): an idle engine accepts the word
on the channel and runs the command it decodes to, the channel then free; an illegal word takes its payload and completes with
IllegalCommand, or waits for the payload (18.md); a command that waits for its payload is run again on DIN as it is, or an
illegal word goes on waiting (8.md, 10.md, 18.md); a command with output left places what DOUT has room for and writes nothing
else (9.md); an idle engine without a word holds its state (R51, R60, R73, R160, R172, R194, R195). -/
def Obligations.StepRunsDecodedCommand : Prop :=
  ∀ s s' : State, s.engineTurn s' →
    (∀ w i, s.activity = .idle → s.chan = some w → decode w = .ok i → step s = exec i { s' with chan := none }) ∧
    (∀ w r, s.activity = .idle → s.chan = some w → decode w = .error r →
      step s =
        if payloadLen w ≤ s.din.length then
          .next { s' with chan := none, din := s.din.drop (payloadLen w), err := .illegalCommand, sticky := true }
        else .next { s' with chan := none, activity := .discard (payloadLen w) }) ∧
    (∀ i, s.activity = .payload i → step s = exec i s') ∧
    (∀ n, s.activity = .discard n →
      step s =
        if n ≤ s.din.length then
          .next { s' with din := s.din.drop n, err := .illegalCommand, sticky := true, activity := .idle }
        else .next s') ∧
    (∀ rest, s.activity = .output rest →
      ∃ now later, now ++ later = rest ∧ now.length = min rest.length (s.doutDepth - s.dout.length) ∧
        step s = .next { s' with dout := s.dout ++ now, activity := if later = [] then .idle else .output later }) ∧
    (s.activity = .idle → s.chan = none → step s = .next s')

/-- R75, R76, R160: an illegal word takes its payload, completes with IllegalCommand and changes nothing else. -/
def Obligations.IllegalWordCompletesWithIllegalCommand : Prop :=
  ∀ (s : State) (w : Word) (r : Illegal), s.accepts w → decode w = .error r →
    step s = .next { s with chan := none, din := s.din.drop (payloadLen w), err := .illegalCommand, sticky := true }

/-- R73: PayloadLen depends on OP and LEN alone, and the engine takes exactly PayloadLen(word) bytes from DIN for every accepted word,
whether or not the command succeeds. -/
def Obligations.EveryAcceptedWordTakesItsPayload : Prop :=
  (∀ w : Word, payloadLen w = if w &&& 0xF = 2 ∨ w &&& 0xF = 6 then (w >>> 8).toNat else 0) ∧
  ∀ (s : State) (w : Word), s.accepts w →
    ∃ t, step s = .next t ∧ t.din = s.din.drop (payloadLen w) ∧ t.chan = none

/-- R162, R163: the result code of every accepted word, errors in the order they are checked, in the state in which the command
has completed: its payload is on DIN and DOUT has room for its output. -/
def Obligations.ResultCodeInCheckOrder : Prop :=
  ∀ (s : State) (w : Word), s.accepts w →
    (∀ i, decode w = .ok i → s.dout.length + (commandOutput i s).length ≤ s.doutDepth) →
    ∃ t, step s = .next t ∧ t.busy = false ∧
      t.err =
        (match decode w with
        | .error _ => .illegalCommand
        | .ok (.init fam level) =>
          if (fam, level) ∈ [(Family.sha3, 224), (.sha3, 256), (.sha3, 384), (.sha3, 512), (.shake, 128), (.shake, 256)]
          then .success else .invalidSecurityLevel
        | .ok (.absorb _) =>
          if s.configured = false then .notConfigured else if s.phase = .squeezing then .invalidPhase else .success
        | .ok (.squeeze _) => if s.configured = false then .notConfigured else .success
        | .ok .digest =>
          if s.configured = false then .notConfigured else if s.mode = .extendable then .invalidMode else .success
        | .ok .permute => .success
        | .ok (.sload n) => if n = 200 then .success else .invalidLength
        | .ok .sread => .success)

/-- R160: a command that completes with an error writes ERR and STICKY, has taken its payload, and changes nothing else. -/
def Obligations.FailingCommandChangesOnlyErrAndSticky : Prop :=
  ∀ (s t : State) (w : Word), s.accepts w → step s = .next t → t.busy = false → t.err ≠ .success →
    t = { s with chan := none, din := s.din.drop (payloadLen w), err := t.err, sticky := true }

/-- R30, R164, R165: STICKY after an accepted word: set by a failure, cleared by a successful INIT, else as it was. (That ERR tells
success from failure while output still waits for room is the model's choice: notes/assumptions/9.md.) -/
def Obligations.StickySetByFailureClearedByInit : Prop :=
  ∀ (s t : State) (w : Word), s.accepts w → step s = .next t →
    t.sticky =
      (if t.err ≠ .success then true
      else match decode w with
        | .ok (.init _ _) => false
        | _ => s.sticky)

/-- R78, R197: with its payload on DIN and room for its output, every accepted word completes in one step (R7), leaving BUSY = 0
and the channel free, and it puts out as many bytes as the word and the state say. -/
def Obligations.AcceptedWordCompletesInOneStep : Prop :=
  ∀ (s : State) (w : Word) (n : Nat), s.accepts w →
    n = (match decode w with
      | .ok (.squeeze k) => if s.configured then k else 0
      | .ok .digest => if s.configured ∧ s.mode = .fixed then s.digestBytes.toNat else 0
      | .ok .sread => 200
      | _ => 0) →
    s.dout.length + n ≤ s.doutDepth →
    ∃ t out, step s = .next t ∧ t.activity = .idle ∧ t.chan = none ∧ t.dout = s.dout ++ out ∧ out.length = n

/-- R194: with too few bytes on DIN the accepted command waits with BUSY = 1 and nothing else changed, for as long as no byte
comes; once the missing bytes are there it completes exactly as if they had been there when it was accepted. (The model's
own here: the bytes that have come stay on DIN meanwhile, notes/assumptions/8.md; the wait is a step that answers the same state,
10.md; an illegal word of OP 2 or 6 waits for its payload like an ABSORB or SLOAD word, 18.md.) -/
def Obligations.MissingPayloadIsWaitedFor : Prop :=
  ∀ (s : State) (w : Word), s.host.script = [] → s.activity = .idle → s.chan = some w → s.din.length < payloadLen w →
    ∃ t, step s = .next t ∧ t.busy = true ∧ t = { s with chan := none, activity := t.activity } ∧ step t = .next t ∧
      ∀ bs, payloadLen w ≤ (s.din ++ bs).length → step (send bs t) = step (send bs s)

/-- R195: a command whose output waits for room places as much of it as there is room for and is done exactly when all is placed;
with no room the engine stays as it is until the host drains. (The model's own here: the step that completes the output writes
nothing but DOUT and the activity, ERR and the registers having been written when the output was computed,
notes/assumptions/9.md; a full DOUT answers the same state, 10.md.) -/
def Obligations.FullDoutIsWaitedFor : Prop :=
  ∀ (s : State) (rest : List Byte), s.host.script = [] → s.activity = .output rest → rest ≠ [] →
    ∃ t now later, step s = .next t ∧ t = { s with dout := s.dout ++ now, activity := t.activity } ∧
      now ++ later = rest ∧ now.length = min rest.length (s.doutDepth - s.dout.length) ∧
      t.activity = (if later = [] then .idle else .output later) ∧ t.outputStream = s.outputStream ∧
      (s.doutDepth ≤ s.dout.length → t = s) ∧ (t.busy = false ↔ s.dout.length + rest.length ≤ s.doutDepth)

/-- R53, R61, R78: no output byte is dropped, duplicated or reordered. In every step but a reset, the stream of bytes the host has
drained, DOUT holds and the command in progress has still to place grows by exactly the output of the command the step accepts
(by nothing, for a failing command or one without output), and in every other step it stays as it is. (That bytes not yet on
DOUT are computed, and so part of the stream, from the acceptance on is the model's choice: notes/assumptions/9.md; that only an
ABSORB or SLOAD waits for payload is part of Inv.) -/
def Obligations.OutputStreamOnlyGrows : Prop :=
  ∀ s t : State, step s = .next t → (∀ rest, s.host.script ≠ .reset :: rest) →
    s.outputStream <+: t.outputStream ∧
    (∀ s' w i, s.engineTurn s' → s.activity = .idle → s.chan = some w → decode w = .ok i →
      t.outputStream = s.outputStream ++ commandOutput i s) ∧
    (s.activity.legal → (∀ s' w i, s.engineTurn s' → s.activity = .idle → s.chan = some w → decode w ≠ .ok i) →
      t.outputStream = s.outputStream)

/-- R160, R167, R168: the engine has no trap, and an error does not stop it. That a wait without end, which R194 and R195 call stuck or
a deadlock, answers a next state as well is the model's reading (notes/assumptions/10.md). -/
def Obligations.EveryStepGoesOn : Prop := ∀ s : State, goesOn (step s)

/-! Invariants -/

/-- R41 at reset. (That DOUT_DEPTH is at least 1 there rests on notes/assumptions/4.md.) -/
def Obligations.InvariantHoldsAtReset : Prop := Inv State.reset

/-- R41: every step, the host's turns among them, keeps the invariants of the state. -/
def Obligations.StepKeepsInvariant : Prop := ∀ s t : State, Inv s → step s = .next t → Inv t

/-- R25 to R27: only a successful INIT and reset write CONFIGURED, MODE, LEVEL, RATE_BYTES and DIGEST_BYTES or lead from Squeezing
back to Absorbing. An INIT of a pair that is not in PRESETS, which fails, is no exception. -/
def Obligations.OnlyInitAndResetStartAnInstance : Prop :=
  ∀ s t : State, s.activity.legal → step s = .next t → (∀ rest, s.host.script ≠ .reset :: rest) →
    (s.activity = .idle → ∀ w fam level, s.chan = some w →
      (fam, level) ∈ [(Family.sha3, 224), (.sha3, 256), (.sha3, 384), (.sha3, 512), (.shake, 128), (.shake, 256)] →
      decode w ≠ .ok (.init fam level)) →
    t.configured = s.configured ∧ t.mode = s.mode ∧ t.level = s.level ∧ t.rateBytes = s.rateBytes ∧
    t.digestBytes = s.digestBytes ∧ (s.phase = .squeezing → t.phase = .squeezing)

/-! INIT -/

/-- R150, R152, R154, R155: in every state, INIT with one of the six pairs of PRESETS begins a new instance, and writes nothing else;
every other pair raises InvalidSecurityLevel and leaves the instance there is. -/
def Obligations.InitBeginsInstanceOrRejects : Prop :=
  (∀ (s : State) (fam : Family) (level : Nat) (rate dig : BitVec 8),
    (fam, level, rate, dig) ∈
      [(Family.sha3, 224, (144 : BitVec 8), (28 : BitVec 8)), (.sha3, 256, 136, 32), (.sha3, 384, 104, 48),
       (.sha3, 512, 72, 64), (.shake, 128, 168, 0), (.shake, 256, 136, 0)] →
    exec (.init fam level) s = .next { s with
      mode := (match fam with | .sha3 => .fixed | .shake => .extendable)
      level := BitVec.ofNat 16 level
      rateBytes := rate
      digestBytes := dig
      configured := true
      A := Lanes.of fun _ _ => 0
      buf := []
      phase := .absorbing
      sqOff := 0
      sticky := false
      err := .success }) ∧
  (∀ (s : State) (fam : Family) (level : Nat),
    (fam, level) ∉ [(Family.sha3, 224), (.sha3, 256), (.sha3, 384), (.sha3, 512), (.shake, 128), (.shake, 256)] →
    exec (.init fam level) s = .next { s with err := .invalidSecurityLevel, sticky := true })

/-- R25, R151: the configuration every instance has follows the formulas capacity = 2 × level, rate = 1600 − capacity,
DIGEST_BYTES = level / 8 for SHA3 and 0 for SHAKE. -/
def Obligations.ConfigurationFollowsFormulas : Prop :=
  ∀ s : State, Inv s → s.configured = true →
    s.capacityBits = 2 * s.level.toNat ∧ 8 * s.rateBytes.toNat + s.capacityBits = 1600 ∧
    (s.mode = .fixed → s.digestBytes.toNat = s.level.toNat / 8) ∧ (s.mode = .extendable → s.digestBytes = 0)

/-! ABSORB -/

/-- R131, R130: in Absorbing, ABSORB takes its payload, appends it to BUF one byte after another, absorbs each block as it is
completed, and writes A, BUF, ERR and nothing else. -/
def Obligations.AbsorbRunsItsLoop : Prop :=
  ∀ (s : State) (n : Nat), s.configured = true → s.phase = .absorbing → n ≤ s.din.length →
    ∃ r, r = (s.din.take n).foldl
        (fun (q : Lanes × List Byte) b =>
          if (q.2 ++ [b]).length = s.rateBytes.toNat then (absorbBlock (q.2 ++ [b]) q.1, []) else (q.1, q.2 ++ [b]))
        (s.A, s.buf) ∧
      exec (.absorb n) s = .next { s with
        A := r.1, buf := r.2, din := s.din.drop n, err := .success, activity := .idle }

/-- R131: the loop is the source's: append the chunk to the buffer; while the buffer holds at least RATE_BYTES, absorb the next
RATE_BYTES of it. -/
def Obligations.AbsorbEqualsBlockForm : Prop :=
  ∀ (s : State) (n : Nat), s.configured = true → s.phase = .absorbing → s.buf.length < s.rateBytes.toNat →
    n ≤ s.din.length →
    exec (.absorb n) s = .next { s with
      A := (absorbWhole s.rateBytes.toNat (s.buf.length + n) s.A (s.buf ++ s.din.take n)).1
      buf := (absorbWhole s.rateBytes.toNat (s.buf.length + n) s.A (s.buf ++ s.din.take n)).2
      din := s.din.drop n
      err := .success
      activity := .idle }

/-- R131, R197: ABSORB cuts what is buffered and its payload into whole blocks, absorbed in order, and fewer than RATE_BYTES bytes
that stay in BUF; it absorbs (and so permutes) at most n / RATE_BYTES + 1 times. -/
def Obligations.AbsorbKeepsEveryByte : Prop :=
  ∀ (s t : State) (n : Nat), s.configured = true → s.phase = .absorbing → s.buf.length < s.rateBytes.toNat →
    n ≤ s.din.length → exec (.absorb n) s = .next t →
    ∃ blocks : List (List Byte), (∀ b ∈ blocks, b.length = s.rateBytes.toNat) ∧
      blocks.flatten ++ t.buf = s.buf ++ s.din.take n ∧ t.buf.length < s.rateBytes.toNat ∧
      blocks.length ≤ n / s.rateBytes.toNat + 1 ∧ t.A = blocks.foldl (fun A b => absorbBlock b A) s.A

/-- R131, and R133, which the spec marks as derived from it: streaming equivalence: however a message is split into ABSORB commands,
the state left is the one that a single ABSORB of the whole message leaves. -/
def Obligations.AbsorbStreamingEquivalence : Prop :=
  ∀ (s : State) (ns : List Nat), ns ≠ [] → ns.sum ≤ s.din.length →
    execAll (ns.map .absorb) s = exec (.absorb ns.sum) s

/-- R56, R132: absorbing a block XORs bit 8k + i of the block with bit i of S[k], leaves the bits beyond the block as they are, and
permutes. -/
def Obligations.BlockIsXoredBitForBit : Prop :=
  ∀ (block : List Byte) (A : Lanes), block.length ≤ 200 →
    ∃ B : Lanes, absorbBlock block A = keccakF B ∧
      (∀ k < 200, ∀ i < 8, (byteAt B k).getLsbD i = ((byteAt A k).getLsbD i ^^ (block.getD k 0).getLsbD i)) ∧
      ∀ k < 200, block.length ≤ k → byteAt B k = byteAt A k

/-! Padding, finalization, SQUEEZE, DIGEST -/

/-- R120 to R123: the byte form of the padded last block is the message bits followed by Pad(r, suffix, m), and is exactly one block
of RATE_BYTES bytes. -/
def Obligations.PadBlockIsBitPadding : Prop :=
  ∀ (rate : Nat) (mode : Mode) (buf : List Byte), buf.length < rate →
    (padBlock rate mode buf).length = rate ∧
    bitsOf (padBlock rate mode buf) = bitsOf buf ++ padBits (8 * rate) (suffixBits mode) (8 * buf.length)

/-- R124, R135: the first SQUEEZE or DIGEST of an instance, even one for 0 bytes, first pads BUF, absorbs the padded block, empties
BUF and enters Squeezing at offset 0, and then runs as in Squeezing. -/
def Obligations.FirstOutputCommandFinalizes : Prop :=
  ∀ (s : State) (i : Instr), s.configured = true → s.phase = .absorbing →
    ((∃ n, i = .squeeze n) ∨ (i = .digest ∧ s.mode = .fixed)) →
    exec i s = exec i { s with
      A := absorbBlock (padBlock s.rateBytes.toNat s.mode s.buf) s.A
      buf := []
      phase := .squeezing
      sqOff := 0 }

/-- R134, R136, R137: in Squeezing, with room on DOUT, SQUEEZE puts out the next n bytes of the output stream, permuting only when
another byte is needed and the block is used up, and writes A, SQ_OFF, DOUT, ERR and nothing else. -/
def Obligations.SqueezeEmitsNextStreamBytes : Prop :=
  ∀ (s : State) (n : Nat), s.configured = true → s.phase = .squeezing → 0 < s.rateBytes.toNat →
    s.sqOff.toNat ≤ s.rateBytes.toNat → s.dout.length + n ≤ s.doutDepth →
    exec (.squeeze n) s = .next { s with
      A := if n = 0 then s.A else Nat.repeat keccakF ((s.sqOff.toNat + n - 1) / s.rateBytes.toNat) s.A
      sqOff := if n = 0 then s.sqOff else BitVec.ofNat 8 ((s.sqOff.toNat + n - 1) % s.rateBytes.toNat + 1)
      dout := s.dout ++ (List.range n).map fun j => streamByte s.rateBytes.toNat s.A (s.sqOff.toNat + j)
      err := .success
      activity := .idle }

/-- R136, R197: one SQUEEZE in Squeezing permutes at most ceil(n / RATE_BYTES) times, whatever room DOUT has (that all of them are
done when the output is computed is the model's choice: notes/assumptions/9.md). -/
def Obligations.SqueezeWorkIsBounded : Prop :=
  ∀ (s t : State) (n : Nat), s.configured = true → s.phase = .squeezing → 0 < s.rateBytes.toNat →
    s.sqOff.toNat ≤ s.rateBytes.toNat → exec (.squeeze n) s = .next t →
    ∃ k, k * s.rateBytes.toNat < n + s.rateBytes.toNat ∧ t.A = Nat.repeat keccakF k s.A

/-- R137: squeeze continuation: SQUEEZE n1; SQUEEZE n2 is SQUEEZE (n1 + n2). -/
def Obligations.SqueezeContinuation : Prop :=
  ∀ (s : State) (n1 n2 : Nat), s.dout.length + n1 + n2 ≤ s.doutDepth →
    execAll [.squeeze n1, .squeeze n2] s = exec (.squeeze (n1 + n2)) s

/-- R138, R140: DIGEST on a Fixed instance is SQUEEZE of DIGEST_BYTES bytes, in either phase, and with room on DOUT it completes. -/
def Obligations.DigestIsSqueezeOfDigestBytes : Prop :=
  ∀ s : State, s.configured = true → s.mode = .fixed →
    exec .digest s = exec (.squeeze s.digestBytes.toNat) s ∧
    (s.dout.length + s.digestBytes.toNat ≤ s.doutDepth →
      ∃ t out, exec .digest s = .next t ∧ t.activity = .idle ∧ t.err = .success ∧ t.phase = .squeezing ∧
        t.dout = s.dout ++ out ∧ out.length = s.digestBytes.toNat)

/-- R139: a second DIGEST does not repeat the digest: DIGEST; DIGEST puts out what one SQUEEZE of twice DIGEST_BYTES does. -/
def Obligations.SecondDigestContinuesStream : Prop :=
  ∀ s : State, s.configured = true → s.mode = .fixed → s.dout.length + 2 * s.digestBytes.toNat ≤ s.doutDepth →
    execAll [.digest, .digest] s = exec (.squeeze (2 * s.digestBytes.toNat)) s

/-- R195, R53: whatever room DOUT has, SQUEEZE, DIGEST and SREAD append the same bytes, those of the command, to the output stream,
and leave the same state but for what is on DOUT and what still waits. (That the registers are written when the output is
computed is the model's choice: notes/assumptions/9.md.) -/
def Obligations.OutputIsIndependentOfDoutDepth : Prop :=
  ∀ (s : State) (d n : Nat) (i : Instr), s.activity = .idle → (i = .squeeze n ∨ i = .digest ∨ i = .sread) →
    ∃ t u, exec i s = .next t ∧ exec i { s with doutDepth := d } = .next u ∧
      t.outputStream = s.outputStream ++ commandOutput i s ∧ u.outputStream = s.outputStream ++ commandOutput i s ∧
      u = { t with doutDepth := d, dout := u.dout, activity := u.activity }

/-! The raw commands and the serializer -/

/-- R111, R100: PERMUTE applies the 24 rounds to A in every state, and writes ERR and nothing else. -/
def Obligations.PermuteAppliesKeccakF : Prop :=
  ∀ s : State, exec .permute s = .next { s with A := rcTable.foldl rnd s.A, err := .success }

/-- R93: SLOAD of 200 bytes makes the payload the byte view of A, in every state; of any other count it fails with InvalidLength; it
takes its payload either way. -/
def Obligations.SloadLoadsByteView : Prop :=
  ∀ (s : State) (n : Nat), n ≤ s.din.length →
    (n = 200 → ∃ A', stateToBytes A' = s.din.take 200 ∧
      exec (.sload n) s = .next { s with A := A', din := s.din.drop n, err := .success, activity := .idle }) ∧
    (n ≠ 200 →
      exec (.sload n) s = .next { s with
        din := s.din.drop n, err := .invalidLength, sticky := true, activity := .idle })

/-- R94: with room on DOUT, SREAD puts the 200-byte view of A there, S[0] first, in every state, and writes ERR and nothing else. -/
def Obligations.SreadEmitsByteView : Prop :=
  ∀ s : State, s.dout.length + 200 ≤ s.doutDepth →
    exec .sread s = .next { s with dout := s.dout ++ stateToBytes s.A, err := .success, activity := .idle }

/-- R54, R10, and R55, which the spec marks as derived from them: bit z of lane (x, y) is
bit z mod 8 of byte 8(5y + x) + z div 8 of the 200-byte view. -/
def Obligations.ByteViewBitOrder : Prop :=
  ∀ (A : Lanes) (x y : Fin 5) (z : Nat), z < 64 →
    (stateToBytes A).length = 200 ∧
    ((stateToBytes A).getD (8 * (5 * y.val + x.val) + z / 8) 0).getLsbD (z % 8) = (A.lane x y).getLsbD z

/-- R90, R91, and R92, which the spec marks as derived from them: the two serializer functions are exact inverses. -/
def Obligations.SerializerRoundTrip : Prop :=
  (∀ A : Lanes, stateFromBytes (stateToBytes A) = A) ∧
  (∀ s : List Byte, s.length = 200 → stateToBytes (stateFromBytes s) = s)

/-! The permutation -/

/-- R10: bit z of ROTL64(v, n) is bit (z − n) mod 64 of v. -/
def Obligations.RotateMovesBits : Prop :=
  ∀ (v : Lane) (n z : Nat), n < 64 → z < 64 → (rotl64 v n).getLsbD z = v.getLsbD ((z + 64 - n) % 64)

/-- R103, R104 (a sentence of R103 that the spec marks as derived): the walk of R103 visits
every lane but (0,0) once, so Rho is the lane-wise rotation by the table. -/
def Obligations.RhoWalkIsTableRotation : Prop := ∀ A : Lanes, rhoWalk A = rho A

/-- R109: the table RC[0..23] is what the rc(t) generator gives. -/
def Obligations.RoundConstantsFromGenerator : Prop := rcTable = (List.range 24).map rcGenerated

/-- R102: Theta XORs into each bit the parity of the column to its left and that of the column to its right one bit lower. -/
def Obligations.ThetaAddsTwoColumnParities : Prop :=
  ∀ (A : Lanes) (x y : Fin 5) (z : Nat), z < 64 →
    ((theta A).lane x y).getLsbD z =
      ((A.lane x y).getLsbD z ^^
        ((List.finRange 5).foldl (fun b y' => b ^^ (A.lane (x + 4) y').getLsbD z) false ^^
         (List.finRange 5).foldl (fun b y' => b ^^ (A.lane (x + 1) y').getLsbD ((z + 63) % 64)) false))

/-- R101, R105, R106, R107: one round, lane by lane: the lanes Theta and Rho leave, moved by Pi, mixed along the row by Chi, the
round constant in lane (0,0). -/
def Obligations.RoundLaneByLane : Prop :=
  ∀ (A : Lanes) (rc : Lane) (x y : Fin 5),
    let moved := fun x y : Fin 5 => rotl64 ((theta A).lane (x + 3 * y) x) ((rhoTable.get x).get (x + 3 * y))
    (rnd A rc).lane x y =
      moved x y ^^^ (~~~(moved (x + 1) y) &&& moved (x + 2) y) ^^^ (if x = 0 ∧ y = 0 then rc else 0)

/-- The permutation is a bijection on the 1600-bit states. R100 says so and marks the sentence as from general knowledge (G6 of
93_implementation_defined.md); it follows from the step mappings of R101 to R107. -/
def Obligations.KeccakFIsBijective : Prop := Function.Bijective keccakF

/-! Frames -/

/-- R35, R93, R94, R111, R198: PERMUTE, SLOAD and SREAD, in whatever way they end or wait, leave BUF, PHASE, SQ_OFF and the
configuration alone; PERMUTE and SREAD take no payload, PERMUTE and SLOAD put nothing out, and SREAD leaves A.
(The states that wait: notes/assumptions/8.md, 9.md.) -/
def Obligations.RawCommandsLeaveTheSession : Prop :=
  ∀ (s t : State) (i : Instr), (i = .permute ∨ i = .sread ∨ ∃ n, i = .sload n) → exec i s = .next t →
    t.buf = s.buf ∧ t.phase = s.phase ∧ t.sqOff = s.sqOff ∧ t.configured = s.configured ∧ t.mode = s.mode ∧
    t.level = s.level ∧ t.rateBytes = s.rateBytes ∧ t.digestBytes = s.digestBytes ∧ t.chan = s.chan ∧ t.host = s.host ∧
    t.doutDepth = s.doutDepth ∧ t.statusDraws = s.statusDraws ∧
    (i = .permute → t.din = s.din ∧ t.dout = s.dout ∧ t.sticky = s.sticky ∧ t.activity = s.activity) ∧
    (i = .sread → t.A = s.A ∧ t.din = s.din ∧ t.sticky = s.sticky) ∧
    ((∃ n, i = .sload n) → t.dout = s.dout)

/-- R35: ABSORB, SQUEEZE and DIGEST, in whatever way they end or wait, leave the configuration alone; ABSORB leaves PHASE, SQ_OFF and
DOUT, SQUEEZE and DIGEST take no payload; INIT leaves the streams. (The states that wait:
notes/assumptions/8.md, 9.md.) -/
def Obligations.SpongeCommandsFrame : Prop :=
  ∀ (s t : State) (i : Instr), exec i s = .next t →
    t.chan = s.chan ∧ t.host = s.host ∧ t.doutDepth = s.doutDepth ∧ t.statusDraws = s.statusDraws ∧
    ((∀ fam level, i ≠ .init fam level) →
      t.configured = s.configured ∧ t.mode = s.mode ∧ t.level = s.level ∧ t.rateBytes = s.rateBytes ∧
      t.digestBytes = s.digestBytes) ∧
    ((∃ n, i = .absorb n) → t.phase = s.phase ∧ t.sqOff = s.sqOff ∧ t.dout = s.dout) ∧
    ((∃ n, i = .squeeze n) ∨ i = .digest → t.din = s.din) ∧
    ((∃ fam level, i = .init fam level) → t.din = s.din ∧ t.dout = s.dout ∧ t.activity = s.activity)

/-! The whole -/

/-- The engine computes the sponge: from every state, INIT with a preset, ABSORB of a message that is on DIN and SQUEEZE of n bytes
(or, for SHA3, DIGEST), executed in a row with room on DOUT, append to DOUT the bytes whose bits are the first 8n bits of the
bit-level sponge with rate 8 × RATE_BYTES and the family's suffix, on the message's bits. -/
def Obligations.EngineComputesTheSponge : Prop :=
  ∀ (s : State) (p : Preset) (m rest : List Byte) (n : Nat) (last : Instr), p ∈ presetTable →
    s.din = m ++ rest → s.dout.length + n ≤ s.doutDepth →
    (last = .squeeze n ∨ (last = .digest ∧ p.family = .sha3 ∧ n = p.level / 8)) →
    ∃ t out, execAll [.init p.family p.level, .absorb m.length, last] s = .next t ∧
      t.dout = s.dout ++ out ∧ t.din = rest ∧ t.err = .success ∧ t.activity = .idle ∧
      bitsOf out = sponge (8 * p.rateBytes.toNat) (suffixBits (modeOf p.family)) (bitsOf m) (8 * n)

/-- R86: the pseudo-command SHA3 is INIT, ABSORB, DIGEST and SHAKE is INIT, ABSORB, SQUEEZE of an eighth of the bit length. A message
or an output that one command can carry takes one command, the empty message none; a longer one is split into commands of at
most 16,777,215 bytes each. A SHAKE bit length that is not a multiple of 8 is rejected. (That an output length of 0 still takes a
SQUEEZE 0, so that there is always a SQUEEZE, is the model's reading: notes/assumptions/16.md; that what one command can carry is not
split is its choice: 22.md.) -/
def Obligations.PseudoCommandsExpand : Prop :=
  (∀ (level : Nat) (b : Byte) (bs : List Byte), level < 2 ^ 24 → (b :: bs).length ≤ 16777215 →
    assemble (.sha3 level (b :: bs)) = some
      [.present (encode (.init .sha3 level)), .present (encode (.absorb (b :: bs).length)), .send (b :: bs),
       .present (encode .digest)] ∧
    ∀ n : Nat, n ≤ 16777215 → assemble (.shake level (b :: bs) (8 * n)) = some
      [.present (encode (.init .shake level)), .present (encode (.absorb (b :: bs).length)), .send (b :: bs),
       .present (encode (.squeeze n))]) ∧
  (∀ level : Nat, level < 2 ^ 24 →
    assemble (.sha3 level []) = some [.present (encode (.init .sha3 level)), .present (encode .digest)] ∧
    ∀ n : Nat, n ≤ 16777215 →
      assemble (.shake level [] (8 * n)) = some [.present (encode (.init .shake level)), .present (encode (.squeeze n))]) ∧
  (∀ (level n : Nat) (msg : List Byte), level < 2 ^ 24 →
    ∃ (pieces : List (List Byte)) (counts : List Nat),
      pieces.flatten = msg ∧ (∀ p ∈ pieces, 0 < p.length ∧ p.length ≤ 16777215) ∧
      counts.sum = n ∧ counts ≠ [] ∧ (∀ k ∈ counts, k ≤ 16777215) ∧
      assemble (.sha3 level msg) = some
        (.present (encode (.init .sha3 level)) :: (pieces.flatMap fun p => [.present (encode (.absorb p.length)), .send p]) ++
          [.present (encode .digest)]) ∧
      assemble (.shake level msg (8 * n)) = some
        (.present (encode (.init .shake level)) :: (pieces.flatMap fun p => [.present (encode (.absorb p.length)), .send p]) ++
          counts.map fun k => .present (encode (.squeeze k)))) ∧
  (∀ (level bits : Nat) (msg : List Byte), bits % 8 ≠ 0 → assemble (.shake level msg bits) = none)
end

