-- ==== Sys2Proof/Laws/Decode.lean ====
section
/-!
SUPPORT. The fields of a command word as arithmetic on its number, and the words the encoder builds.
-/

namespace Sys2Proof.Laws

theorem opOf_toNat (w : Word) : (opOf w).toNat = w.toNat % 16 := by simp [opOf]

theorem lenOf_eq_shift (w : Word) : lenOf w = (w >>> 8).toNat := by
  have hlt := w.isLt
  simp [lenOf, BitVec.extractLsb'_toNat]
  omega

theorem lenOf_lt (w : Word) : lenOf w < 2 ^ 24 := (w.extractLsb' 8 24).isLt

/-- The mask of OP and of the whole low byte, as residues. -/
theorem and_low4_toNat (w : Word) : (w &&& 0xF).toNat = w.toNat % 16 := by
  simpa using Nat.and_two_pow_sub_one_eq_mod w.toNat 4

theorem and_low8_toNat (w : Word) : (w &&& 0xFF).toNat = w.toNat % 256 := by
  simpa using Nat.and_two_pow_sub_one_eq_mod w.toNat 8

theorem and_low8_eq_iff (w : Word) (c : Nat) (hc : c < 256) :
    (w &&& 0xFF) = BitVec.ofNat 32 c ↔ w.toNat % 256 = c := by
  rw [← BitVec.toNat_inj, and_low8_toNat]
  simp
  omega

/-- The row of INIT in R75 leaves FAM free: its low byte is 0x01 or 0x11. -/
theorem and_initMask_iff (w : Word) : (w &&& 0xEF) = 1 ↔ w.toNat % 256 = 1 ∨ w.toNat % 256 = 17 := by
  have hlow : (w &&& 0xEF) = (w &&& 0xFF) &&& 0xEF := by rw [BitVec.and_assoc]; rfl
  have hval : w &&& 0xFF = BitVec.ofNat 32 (w.toNat % 256) := by
    apply BitVec.eq_of_toNat_eq
    rw [and_low8_toNat]
    simp
    omega
  have hall : ∀ k < 256, (BitVec.ofNat 32 k &&& 239 = 1 ↔ k = 1 ∨ k = 17) := by decide +kernel
  rw [hlow, hval]
  exact hall _ (Nat.mod_lt _ (by decide))

theorem lenWord_toNat (n : Nat) (c : BitVec 8) (h : n < 2 ^ 24) : (lenWord n c).toNat = n * 256 + c.toNat := by
  have hc := c.isLt
  have h1 : (n % 2 ^ 32) <<< 8 % 2 ^ 32 = n <<< 8 := by simp only [Nat.shiftLeft_eq]; omega
  have h2 : c.toNat % 2 ^ 32 = c.toNat := by omega
  simp only [lenWord, BitVec.toNat_or, BitVec.toNat_shiftLeft, BitVec.toNat_ofNat, BitVec.toNat_setWidth]
  rw [h1, h2, ← Nat.shiftLeft_add_eq_or_of_lt (by omega), Nat.shiftLeft_eq]

theorem opOf_lenWord (n : Nat) (c : BitVec 8) (h : n < 2 ^ 24) : (opOf (lenWord n c)).toNat = c.toNat % 16 := by
  rw [opOf_toNat, lenWord_toNat n c h]
  omega

theorem lenOf_lenWord (n : Nat) (c : BitVec 8) (h : n < 2 ^ 24) : lenOf (lenWord n c) = n := by
  have hc := c.isLt
  rw [lenOf_eq_shift, BitVec.toNat_ushiftRight, lenWord_toNat n c h, Nat.shiftRight_eq_div_pow]
  omega

/-- What a word decodes to fixes its payload. -/
theorem payloadLen_of_decode {w : Word} {i : Instr} (h : decode w = .ok i) :
    payloadLen w = match i with
      | .absorb n => n
      | .sload n => n
      | _ => 0 := by
  simp only [decode] at h
  split at h <;> rename_i hop <;> simp only [payloadLen, hop]
  all_goals first
    | (simp only [ifMatches] at h; split at h <;> cases h; rfl)
    | cases h

end Sys2Proof.Laws
end

