-- ==== Sys2Proof/Laws/State.lean ====
section
/-!
SUPPORT. What each shared update of the state does to each field, one lemma a field, so that no proof unfolds a record update.
-/

namespace Sys2Proof.Laws

open Sys2Proof.Machine

/-! The fields of a state after `succeed`. -/

@[simp] theorem succeed_A (s : State) : (State.succeed s).A = s.A := rfl
@[simp] theorem succeed_buf (s : State) : (State.succeed s).buf = s.buf := rfl
@[simp] theorem succeed_configured (s : State) : (State.succeed s).configured = s.configured := rfl
@[simp] theorem succeed_mode (s : State) : (State.succeed s).mode = s.mode := rfl
@[simp] theorem succeed_level (s : State) : (State.succeed s).level = s.level := rfl
@[simp] theorem succeed_rateBytes (s : State) : (State.succeed s).rateBytes = s.rateBytes := rfl
@[simp] theorem succeed_digestBytes (s : State) : (State.succeed s).digestBytes = s.digestBytes := rfl
@[simp] theorem succeed_phase (s : State) : (State.succeed s).phase = s.phase := rfl
@[simp] theorem succeed_sqOff (s : State) : (State.succeed s).sqOff = s.sqOff := rfl
@[simp] theorem succeed_err (s : State) : (State.succeed s).err = .success := rfl
@[simp] theorem succeed_sticky (s : State) : (State.succeed s).sticky = s.sticky := rfl
@[simp] theorem succeed_activity (s : State) : (State.succeed s).activity = s.activity := rfl
@[simp] theorem succeed_chan (s : State) : (State.succeed s).chan = s.chan := rfl
@[simp] theorem succeed_din (s : State) : (State.succeed s).din = s.din := rfl
@[simp] theorem succeed_dout (s : State) : (State.succeed s).dout = s.dout := rfl
@[simp] theorem succeed_doutDepth (s : State) : (State.succeed s).doutDepth = s.doutDepth := rfl
@[simp] theorem succeed_statusDraws (s : State) : (State.succeed s).statusDraws = s.statusDraws := rfl
@[simp] theorem succeed_host (s : State) : (State.succeed s).host = s.host := rfl

/-! The fields of a state after `raiseError`. -/

@[simp] theorem raiseError_A (c : ErrCode) (s : State) : (raiseError c s).A = s.A := rfl
@[simp] theorem raiseError_buf (c : ErrCode) (s : State) : (raiseError c s).buf = s.buf := rfl
@[simp] theorem raiseError_configured (c : ErrCode) (s : State) : (raiseError c s).configured = s.configured := rfl
@[simp] theorem raiseError_mode (c : ErrCode) (s : State) : (raiseError c s).mode = s.mode := rfl
@[simp] theorem raiseError_level (c : ErrCode) (s : State) : (raiseError c s).level = s.level := rfl
@[simp] theorem raiseError_rateBytes (c : ErrCode) (s : State) : (raiseError c s).rateBytes = s.rateBytes := rfl
@[simp] theorem raiseError_digestBytes (c : ErrCode) (s : State) : (raiseError c s).digestBytes = s.digestBytes := rfl
@[simp] theorem raiseError_phase (c : ErrCode) (s : State) : (raiseError c s).phase = s.phase := rfl
@[simp] theorem raiseError_sqOff (c : ErrCode) (s : State) : (raiseError c s).sqOff = s.sqOff := rfl
@[simp] theorem raiseError_err (c : ErrCode) (s : State) : (raiseError c s).err = c := rfl
@[simp] theorem raiseError_sticky (c : ErrCode) (s : State) : (raiseError c s).sticky = true := rfl
@[simp] theorem raiseError_activity (c : ErrCode) (s : State) : (raiseError c s).activity = s.activity := rfl
@[simp] theorem raiseError_chan (c : ErrCode) (s : State) : (raiseError c s).chan = s.chan := rfl
@[simp] theorem raiseError_din (c : ErrCode) (s : State) : (raiseError c s).din = s.din := rfl
@[simp] theorem raiseError_dout (c : ErrCode) (s : State) : (raiseError c s).dout = s.dout := rfl
@[simp] theorem raiseError_doutDepth (c : ErrCode) (s : State) : (raiseError c s).doutDepth = s.doutDepth := rfl
@[simp] theorem raiseError_statusDraws (c : ErrCode) (s : State) : (raiseError c s).statusDraws = s.statusDraws := rfl
@[simp] theorem raiseError_host (c : ErrCode) (s : State) : (raiseError c s).host = s.host := rfl

/-! The fields of a state after `finalize`. -/

@[simp] theorem finalize_A (s : State) : (finalize s).A = absorbBlock (padBlock s.rateBytes.toNat s.mode s.buf) s.A := rfl
@[simp] theorem finalize_buf (s : State) : (finalize s).buf = [] := rfl
@[simp] theorem finalize_configured (s : State) : (finalize s).configured = s.configured := rfl
@[simp] theorem finalize_mode (s : State) : (finalize s).mode = s.mode := rfl
@[simp] theorem finalize_level (s : State) : (finalize s).level = s.level := rfl
@[simp] theorem finalize_rateBytes (s : State) : (finalize s).rateBytes = s.rateBytes := rfl
@[simp] theorem finalize_digestBytes (s : State) : (finalize s).digestBytes = s.digestBytes := rfl
@[simp] theorem finalize_phase (s : State) : (finalize s).phase = .squeezing := rfl
@[simp] theorem finalize_sqOff (s : State) : (finalize s).sqOff = 0 := rfl
@[simp] theorem finalize_err (s : State) : (finalize s).err = s.err := rfl
@[simp] theorem finalize_sticky (s : State) : (finalize s).sticky = s.sticky := rfl
@[simp] theorem finalize_activity (s : State) : (finalize s).activity = s.activity := rfl
@[simp] theorem finalize_chan (s : State) : (finalize s).chan = s.chan := rfl
@[simp] theorem finalize_din (s : State) : (finalize s).din = s.din := rfl
@[simp] theorem finalize_dout (s : State) : (finalize s).dout = s.dout := rfl
@[simp] theorem finalize_doutDepth (s : State) : (finalize s).doutDepth = s.doutDepth := rfl
@[simp] theorem finalize_statusDraws (s : State) : (finalize s).statusDraws = s.statusDraws := rfl
@[simp] theorem finalize_host (s : State) : (finalize s).host = s.host := rfl

/-! The fields of a state after `doutPut`. -/

@[simp] theorem doutPut_A (bs : List Byte) (s : State) : (doutPut bs s).A = s.A := rfl
@[simp] theorem doutPut_buf (bs : List Byte) (s : State) : (doutPut bs s).buf = s.buf := rfl
@[simp] theorem doutPut_configured (bs : List Byte) (s : State) : (doutPut bs s).configured = s.configured := rfl
@[simp] theorem doutPut_mode (bs : List Byte) (s : State) : (doutPut bs s).mode = s.mode := rfl
@[simp] theorem doutPut_level (bs : List Byte) (s : State) : (doutPut bs s).level = s.level := rfl
@[simp] theorem doutPut_rateBytes (bs : List Byte) (s : State) : (doutPut bs s).rateBytes = s.rateBytes := rfl
@[simp] theorem doutPut_digestBytes (bs : List Byte) (s : State) : (doutPut bs s).digestBytes = s.digestBytes := rfl
@[simp] theorem doutPut_phase (bs : List Byte) (s : State) : (doutPut bs s).phase = s.phase := rfl
@[simp] theorem doutPut_sqOff (bs : List Byte) (s : State) : (doutPut bs s).sqOff = s.sqOff := rfl
@[simp] theorem doutPut_err (bs : List Byte) (s : State) : (doutPut bs s).err = s.err := rfl
@[simp] theorem doutPut_sticky (bs : List Byte) (s : State) : (doutPut bs s).sticky = s.sticky := rfl
@[simp] theorem doutPut_chan (bs : List Byte) (s : State) : (doutPut bs s).chan = s.chan := rfl
@[simp] theorem doutPut_din (bs : List Byte) (s : State) : (doutPut bs s).din = s.din := rfl
@[simp] theorem doutPut_dout (bs : List Byte) (s : State) : (doutPut bs s).dout = s.dout ++ bs.take s.doutRoom := rfl
@[simp] theorem doutPut_doutDepth (bs : List Byte) (s : State) : (doutPut bs s).doutDepth = s.doutDepth := rfl
@[simp] theorem doutPut_statusDraws (bs : List Byte) (s : State) : (doutPut bs s).statusDraws = s.statusDraws := rfl
@[simp] theorem doutPut_host (bs : List Byte) (s : State) : (doutPut bs s).host = s.host := rfl

/-! The fields of a state after `beginInstance`. -/

@[simp] theorem beginInstance_A (p : Preset) (s : State) : (beginInstance p s).A = Lanes.zero := rfl
@[simp] theorem beginInstance_buf (p : Preset) (s : State) : (beginInstance p s).buf = [] := rfl
@[simp] theorem beginInstance_configured (p : Preset) (s : State) : (beginInstance p s).configured = true := rfl
@[simp] theorem beginInstance_mode (p : Preset) (s : State) : (beginInstance p s).mode = modeOf p.family := rfl
@[simp] theorem beginInstance_level (p : Preset) (s : State) : (beginInstance p s).level = BitVec.ofNat 16 p.level := rfl
@[simp] theorem beginInstance_rateBytes (p : Preset) (s : State) : (beginInstance p s).rateBytes = p.rateBytes := rfl
@[simp] theorem beginInstance_digestBytes (p : Preset) (s : State) : (beginInstance p s).digestBytes = p.digestBytes := rfl
@[simp] theorem beginInstance_phase (p : Preset) (s : State) : (beginInstance p s).phase = .absorbing := rfl
@[simp] theorem beginInstance_sqOff (p : Preset) (s : State) : (beginInstance p s).sqOff = 0 := rfl
@[simp] theorem beginInstance_err (p : Preset) (s : State) : (beginInstance p s).err = .success := rfl
@[simp] theorem beginInstance_sticky (p : Preset) (s : State) : (beginInstance p s).sticky = false := rfl
@[simp] theorem beginInstance_activity (p : Preset) (s : State) : (beginInstance p s).activity = s.activity := rfl
@[simp] theorem beginInstance_chan (p : Preset) (s : State) : (beginInstance p s).chan = s.chan := rfl
@[simp] theorem beginInstance_din (p : Preset) (s : State) : (beginInstance p s).din = s.din := rfl
@[simp] theorem beginInstance_dout (p : Preset) (s : State) : (beginInstance p s).dout = s.dout := rfl
@[simp] theorem beginInstance_doutDepth (p : Preset) (s : State) : (beginInstance p s).doutDepth = s.doutDepth := rfl
@[simp] theorem beginInstance_statusDraws (p : Preset) (s : State) : (beginInstance p s).statusDraws = s.statusDraws := rfl
@[simp] theorem beginInstance_host (p : Preset) (s : State) : (beginInstance p s).host = s.host := rfl

/-! The fields of a state after `send`. -/

@[simp] theorem send_A (bs : List Byte) (s : State) : (send bs s).A = s.A := rfl
@[simp] theorem send_buf (bs : List Byte) (s : State) : (send bs s).buf = s.buf := rfl
@[simp] theorem send_configured (bs : List Byte) (s : State) : (send bs s).configured = s.configured := rfl
@[simp] theorem send_mode (bs : List Byte) (s : State) : (send bs s).mode = s.mode := rfl
@[simp] theorem send_level (bs : List Byte) (s : State) : (send bs s).level = s.level := rfl
@[simp] theorem send_rateBytes (bs : List Byte) (s : State) : (send bs s).rateBytes = s.rateBytes := rfl
@[simp] theorem send_digestBytes (bs : List Byte) (s : State) : (send bs s).digestBytes = s.digestBytes := rfl
@[simp] theorem send_phase (bs : List Byte) (s : State) : (send bs s).phase = s.phase := rfl
@[simp] theorem send_sqOff (bs : List Byte) (s : State) : (send bs s).sqOff = s.sqOff := rfl
@[simp] theorem send_err (bs : List Byte) (s : State) : (send bs s).err = s.err := rfl
@[simp] theorem send_sticky (bs : List Byte) (s : State) : (send bs s).sticky = s.sticky := rfl
@[simp] theorem send_activity (bs : List Byte) (s : State) : (send bs s).activity = s.activity := rfl
@[simp] theorem send_chan (bs : List Byte) (s : State) : (send bs s).chan = s.chan := rfl
@[simp] theorem send_din (bs : List Byte) (s : State) : (send bs s).din = s.din ++ bs := rfl
@[simp] theorem send_dout (bs : List Byte) (s : State) : (send bs s).dout = s.dout := rfl
@[simp] theorem send_doutDepth (bs : List Byte) (s : State) : (send bs s).doutDepth = s.doutDepth := rfl
@[simp] theorem send_statusDraws (bs : List Byte) (s : State) : (send bs s).statusDraws = s.statusDraws := rfl
@[simp] theorem send_host (bs : List Byte) (s : State) : (send bs s).host = s.host := rfl

/-! The fields of a state after `drain`. -/

@[simp] theorem drain_A (n : Nat) (s : State) : (drain n s).A = s.A := rfl
@[simp] theorem drain_buf (n : Nat) (s : State) : (drain n s).buf = s.buf := rfl
@[simp] theorem drain_configured (n : Nat) (s : State) : (drain n s).configured = s.configured := rfl
@[simp] theorem drain_mode (n : Nat) (s : State) : (drain n s).mode = s.mode := rfl
@[simp] theorem drain_level (n : Nat) (s : State) : (drain n s).level = s.level := rfl
@[simp] theorem drain_rateBytes (n : Nat) (s : State) : (drain n s).rateBytes = s.rateBytes := rfl
@[simp] theorem drain_digestBytes (n : Nat) (s : State) : (drain n s).digestBytes = s.digestBytes := rfl
@[simp] theorem drain_phase (n : Nat) (s : State) : (drain n s).phase = s.phase := rfl
@[simp] theorem drain_sqOff (n : Nat) (s : State) : (drain n s).sqOff = s.sqOff := rfl
@[simp] theorem drain_err (n : Nat) (s : State) : (drain n s).err = s.err := rfl
@[simp] theorem drain_sticky (n : Nat) (s : State) : (drain n s).sticky = s.sticky := rfl
@[simp] theorem drain_activity (n : Nat) (s : State) : (drain n s).activity = s.activity := rfl
@[simp] theorem drain_chan (n : Nat) (s : State) : (drain n s).chan = s.chan := rfl
@[simp] theorem drain_din (n : Nat) (s : State) : (drain n s).din = s.din := rfl
@[simp] theorem drain_dout (n : Nat) (s : State) : (drain n s).dout = s.dout.drop n := rfl
@[simp] theorem drain_doutDepth (n : Nat) (s : State) : (drain n s).doutDepth = s.doutDepth := rfl
@[simp] theorem drain_statusDraws (n : Nat) (s : State) : (drain n s).statusDraws = s.statusDraws := rfl

/-! The fields of a state after `readStatus`. -/

@[simp] theorem readStatus_A (i : BitVec 2) (s : State) : (readStatus i s).A = s.A := rfl
@[simp] theorem readStatus_buf (i : BitVec 2) (s : State) : (readStatus i s).buf = s.buf := rfl
@[simp] theorem readStatus_configured (i : BitVec 2) (s : State) : (readStatus i s).configured = s.configured := rfl
@[simp] theorem readStatus_mode (i : BitVec 2) (s : State) : (readStatus i s).mode = s.mode := rfl
@[simp] theorem readStatus_level (i : BitVec 2) (s : State) : (readStatus i s).level = s.level := rfl
@[simp] theorem readStatus_rateBytes (i : BitVec 2) (s : State) : (readStatus i s).rateBytes = s.rateBytes := rfl
@[simp] theorem readStatus_digestBytes (i : BitVec 2) (s : State) : (readStatus i s).digestBytes = s.digestBytes := rfl
@[simp] theorem readStatus_phase (i : BitVec 2) (s : State) : (readStatus i s).phase = s.phase := rfl
@[simp] theorem readStatus_sqOff (i : BitVec 2) (s : State) : (readStatus i s).sqOff = s.sqOff := rfl
@[simp] theorem readStatus_err (i : BitVec 2) (s : State) : (readStatus i s).err = s.err := rfl
@[simp] theorem readStatus_sticky (i : BitVec 2) (s : State) : (readStatus i s).sticky = s.sticky := rfl
@[simp] theorem readStatus_activity (i : BitVec 2) (s : State) : (readStatus i s).activity = s.activity := rfl
@[simp] theorem readStatus_chan (i : BitVec 2) (s : State) : (readStatus i s).chan = s.chan := rfl
@[simp] theorem readStatus_din (i : BitVec 2) (s : State) : (readStatus i s).din = s.din := rfl
@[simp] theorem readStatus_dout (i : BitVec 2) (s : State) : (readStatus i s).dout = s.dout := rfl
@[simp] theorem readStatus_doutDepth (i : BitVec 2) (s : State) : (readStatus i s).doutDepth = s.doutDepth := rfl

theorem doutPut_activity (bs : List Byte) (s : State) :
    (doutPut bs s).activity = if bs.length ≤ s.doutRoom then .idle else .output (bs.drop s.doutRoom) := rfl

@[simp] theorem drain_gotBytes (n : Nat) (s : State) :
    (drain n s).host.gotBytes = s.host.gotBytes ++ s.dout.take n := rfl

@[simp] theorem readStatus_gotStatus (i : BitVec 2) (s : State) :
    (readStatus i s).host.gotStatus = s.host.gotStatus ++ [s.srWord i] := rfl

@[simp] theorem assertReset_host (s : State) : (assertReset s).host = s.host := rfl

@[simp] theorem assertReset_chan (s : State) : (assertReset s).chan = s.chan := rfl

/-- BUSY is 1 exactly when a command is in progress (R31). -/
theorem busy_iff (s : State) : s.busy = true ↔ s.activity ≠ .idle := by
  cases h : s.activity <;> simp [State.busy, h]

end Sys2Proof.Laws
end

