-- ==== Sys2Proof/Laws/Ops.lean ====
section
/-!
SUPPORT. One lemma for each shared operation that says once what it can do; proofs cite these and do not unfold the operation.
-/

namespace Sys2Proof.Laws

open Sys2Proof.Machine

/-! Operand streams -/

theorem dinTake_ready {w : Activity} {n : Nat} {s : State} {run : List Byte → State → State} (h : n ≤ s.din.length) :
    dinTake w n s run = run (s.din.take n) { s with din := s.din.drop n, activity := .idle } := by
  simp [dinTake, h]

theorem dinTake_waits {w : Activity} {n : Nat} {s : State} {run : List Byte → State → State} (h : s.din.length < n) :
    dinTake w n s run = { s with activity := w } := by
  simp [dinTake, Nat.not_le.mpr h]

/-- Output that fits is on DOUT at once and the command is done. -/
theorem doutPut_fits {bs : List Byte} {s : State} (h : s.dout.length + bs.length ≤ s.doutDepth) :
    doutPut bs s = { s with dout := s.dout ++ bs, activity := .idle } := by
  have hr : bs.length ≤ s.doutRoom := by unfold State.doutRoom; omega
  simp [doutPut, hr, List.take_of_length_le hr]

/-- What `doutPut` places and what it leaves to place is exactly its argument, in order. -/
theorem doutPut_conserves (bs : List Byte) (s : State) :
    (doutPut bs s).dout ++ (doutPut bs s).activity.unplaced = s.dout ++ bs := by
  rw [doutPut_dout, doutPut_activity]
  split
  · rename_i h
    simp [Activity.unplaced, List.take_of_length_le h]
  · simp [Activity.unplaced]

theorem doutPut_outputStream (bs : List Byte) (s : State) :
    (doutPut bs s).outputStream = s.host.gotBytes ++ s.dout ++ bs := by
  have h := doutPut_conserves bs s
  simp only [State.outputStream, doutPut_host, List.append_assoc, h]

theorem doutPut_dout_length {bs : List Byte} {s : State} (h : s.dout.length ≤ s.doutDepth) :
    (doutPut bs s).dout.length ≤ s.doutDepth := by
  simp only [doutPut_dout, List.length_append, List.length_take, State.doutRoom]
  omega

theorem doutPut_activity_legal (bs : List Byte) (s : State) : (doutPut bs s).activity.legal := by
  rw [doutPut_activity]
  split
  · trivial
  · rename_i h
    intro hd
    exact h (List.drop_eq_nil_iff.mp hd)

/-! The absorb loop -/

@[simp] theorem absorbBytes_nil (rate : Nat) (A : Lanes) (buf : List Byte) : absorbBytes rate [] A buf = (A, buf) := rfl

/-- The loop keeps no state but A and BUF, so it can be cut anywhere (R133). -/
theorem absorbBytes_append (rate : Nat) (p q : List Byte) (A : Lanes) (buf : List Byte) :
    absorbBytes rate (p ++ q) A buf = absorbBytes rate q (absorbBytes rate p A buf).1 (absorbBytes rate p A buf).2 := by
  induction p generalizing A buf with
  | nil => rfl
  | cons b p ih =>
    simp only [List.cons_append, absorbBytes]
    split <;> exact ih _ _

/-- A chunk that does not fill the buffer only joins it. -/
theorem absorbBytes_short {rate : Nat} {p : List Byte} {A : Lanes} {buf : List Byte} (h : buf.length + p.length < rate) :
    absorbBytes rate p A buf = (A, buf ++ p) := by
  induction p generalizing buf with
  | nil => simp
  | cons b p ih =>
    simp only [List.length_cons] at h
    rw [absorbBytes, if_neg (by omega), ih (by simp; omega)]
    simp

/-- A chunk that fills the buffer exactly is absorbed at once. -/
theorem absorbBytes_block {rate : Nat} {p : List Byte} {A : Lanes} {buf : List Byte} (hb : buf.length < rate)
    (h : buf.length + p.length = rate) : absorbBytes rate p A buf = (absorbBlock (buf ++ p) A, []) := by
  induction p generalizing buf with
  | nil => simp at h; omega
  | cons b p ih =>
    simp only [List.length_cons] at h
    rw [absorbBytes]
    split
    · have hp : p = [] := List.eq_nil_of_length_eq_zero (by omega)
      simp [hp]
    · rw [ih (by simp; omega) (by simp; omega)]
      simp

theorem absorbBytes_buf_lt {rate : Nat} (p : List Byte) (A : Lanes) {buf : List Byte} (h : buf.length < rate) :
    (absorbBytes rate p A buf).2.length < rate := by
  induction p generalizing A buf with
  | nil => exact h
  | cons b p ih =>
    rw [absorbBytes]
    split
    · exact ih _ (by simp; omega)
    · exact ih _ (by simp; omega)

/-! Squeezing -/

@[simp] theorem squeezeBytes_zero (rate : BitVec 8) (A : Lanes) (off : BitVec 8) :
    squeezeBytes rate 0 A off = ⟨[], A, off⟩ := rfl

@[simp] theorem squeezeBytes_length (rate : BitVec 8) (n : Nat) (A : Lanes) (off : BitVec 8) :
    (squeezeBytes rate n A off).bytes.length = n := by
  induction n generalizing A off with
  | zero => rfl
  | succ n ih => simp [squeezeBytes, ih]

/-- The loop keeps no state but A and SQ_OFF, so it can be cut anywhere (R137). -/
theorem squeezeBytes_add (rate : BitVec 8) (m n : Nat) (A : Lanes) (off : BitVec 8) :
    squeezeBytes rate (m + n) A off =
      ⟨(squeezeBytes rate m A off).bytes ++
          (squeezeBytes rate n (squeezeBytes rate m A off).A (squeezeBytes rate m A off).sqOff).bytes,
        (squeezeBytes rate n (squeezeBytes rate m A off).A (squeezeBytes rate m A off).sqOff).A,
        (squeezeBytes rate n (squeezeBytes rate m A off).A (squeezeBytes rate m A off).sqOff).sqOff⟩ := by
  induction m generalizing A off with
  | zero => simp
  | succ m ih =>
    rw [show m + 1 + n = (m + n) + 1 from by omega]
    simp only [squeezeBytes, ih, List.cons_append]

/-- SQ_OFF stays in 0..RATE_BYTES (R28). -/
theorem squeezeBytes_sqOff_le {rate : BitVec 8} (n : Nat) (A : Lanes) {off : BitVec 8} (hr : 0 < rate.toNat)
    (h : off.toNat ≤ rate.toNat) : (squeezeBytes rate n A off).sqOff.toNat ≤ rate.toNat := by
  induction n generalizing A off with
  | zero => exact h
  | succ n ih =>
    have hlt := rate.isLt
    simp only [squeezeBytes]
    apply ih
    split
    · simp; omega
    · rename_i hne
      have : off.toNat ≠ rate.toNat := fun e => hne (BitVec.eq_of_toNat_eq e)
      simp; omega

/-! Entering Squeezing -/

theorem enterSqueezing_absorbing {s : State} (h : s.phase = .absorbing) : enterSqueezing s = finalize s := by
  simp [enterSqueezing, h]

theorem enterSqueezing_squeezing {s : State} (h : s.phase = .squeezing) : enterSqueezing s = s := by
  simp [enterSqueezing, h]

/-- Everything `enterSqueezing` can do. -/
theorem enterSqueezing_cases (s : State) :
    (s.phase = .absorbing ∧ enterSqueezing s = finalize s) ∨ (s.phase = .squeezing ∧ enterSqueezing s = s) := by
  cases h : s.phase
  · exact .inl ⟨rfl, enterSqueezing_absorbing h⟩
  · exact .inr ⟨rfl, enterSqueezing_squeezing h⟩

@[simp] theorem enterSqueezing_phase (s : State) : (enterSqueezing s).phase = .squeezing := by
  rcases enterSqueezing_cases s with ⟨_, h⟩ | ⟨hp, h⟩
  · rw [h]; rfl
  · rw [h, hp]

/-- What finalization never touches. -/
theorem enterSqueezing_frame (s : State) :
    (enterSqueezing s).configured = s.configured ∧ (enterSqueezing s).mode = s.mode ∧
    (enterSqueezing s).level = s.level ∧ (enterSqueezing s).rateBytes = s.rateBytes ∧
    (enterSqueezing s).digestBytes = s.digestBytes ∧ (enterSqueezing s).err = s.err ∧
    (enterSqueezing s).sticky = s.sticky ∧ (enterSqueezing s).activity = s.activity ∧
    (enterSqueezing s).chan = s.chan ∧ (enterSqueezing s).din = s.din ∧ (enterSqueezing s).dout = s.dout ∧
    (enterSqueezing s).doutDepth = s.doutDepth ∧ (enterSqueezing s).statusDraws = s.statusDraws ∧
    (enterSqueezing s).host = s.host := by
  rcases enterSqueezing_cases s with ⟨_, h⟩ | ⟨_, h⟩ <;> rw [h] <;> simp

/-! Commands -/

/-- Everything INIT can do. -/
theorem execInit_cases (fam : Family) (level : Nat) (s : State) :
    (∃ p, preset? fam level = some p ∧ execInit fam level s = .next (beginInstance p s)) ∨
    (preset? fam level = none ∧ execInit fam level s = .next (raiseError .invalidSecurityLevel s)) := by
  cases h : preset? fam level
  · exact .inr ⟨rfl, by simp [execInit, h]⟩
  · exact .inl ⟨_, rfl, by simp [execInit, h]⟩

/-- Everything ABSORB can do with its payload. -/
theorem absorbTaken_cases (p : List Byte) (s : State) :
    (s.configured = false ∧ absorbTaken p s = raiseError .notConfigured s) ∨
    (s.configured = true ∧ s.phase = .squeezing ∧ absorbTaken p s = raiseError .invalidPhase s) ∨
    (s.configured = true ∧ s.phase = .absorbing ∧ absorbTaken p s =
      { s with
        A := (absorbBytes s.rateBytes.toNat p s.A s.buf).1
        buf := (absorbBytes s.rateBytes.toNat p s.A s.buf).2
        err := .success }) := by
  cases hc : s.configured <;> cases hp : s.phase <;> simp [absorbTaken, hc, hp, State.succeed]

/-- Everything SQUEEZE can do. -/
theorem execSqueeze_cases (n : Nat) (s : State) :
    (s.configured = false ∧ execSqueeze n s = .next (raiseError .notConfigured s)) ∨
    (s.configured = true ∧ execSqueeze n s = .next (emitSqueezed n (enterSqueezing s))) := by
  cases hc : s.configured <;> simp [execSqueeze, hc]

/-- Everything DIGEST can do. -/
theorem execDigest_cases (s : State) :
    (s.configured = false ∧ execDigest s = .next (raiseError .notConfigured s)) ∨
    (s.configured = true ∧ s.mode = .extendable ∧ execDigest s = .next (raiseError .invalidMode s)) ∨
    (s.configured = true ∧ s.mode = .fixed ∧
      execDigest s = .next (emitSqueezed s.digestBytes.toNat (enterSqueezing s))) := by
  cases hc : s.configured <;> cases hm : s.mode <;> simp [execDigest, hc, hm]

/-- Everything SLOAD can do with its payload. -/
theorem sloadTaken_cases (p : List Byte) (s : State) :
    (p.length = 200 ∧ sloadTaken p s = { s with A := stateFromBytes p, err := .success }) ∨
    (p.length ≠ 200 ∧ sloadTaken p s = raiseError .invalidLength s) := by
  by_cases h : p.length = 200
  · exact .inl ⟨h, by simp [sloadTaken, h, State.succeed]⟩
  · exact .inr ⟨h, by simp [sloadTaken, h]⟩

/-- A silent host leaves the step to the engine. -/
theorem step_silent {s : State} (h : s.host.script = []) : step s = engineStep s := by simp [step, h]

end Sys2Proof.Laws
end

