-- ==== Sys2Proof/Laws/PerInstr.lean ====
section
/-!
SUPPORT. The per-instruction family PayloadFraming: the word of a command announces the payload the command takes (R73, R78).
-/

namespace Sys2Proof.Laws

/-- The payload bytes a command takes from DIN (the payload column of R74). -/
def payloadOf : Instr → Nat
  | .absorb n => n
  | .sload n => n
  | .init _ _ => 0
  | .squeeze _ => 0
  | .digest => 0
  | .permute => 0
  | .sread => 0

namespace PayloadFraming

/-- R73 and R78 of one command: PayloadLen of its word is what it takes. -/
def Statement (i : Instr) : Prop := i.wf = true → payloadLen (encode i) = payloadOf i

theorem init (fam : Family) (level : Nat) : Statement (.init fam level) := by
  intro h
  have hn : level < 2 ^ 24 := by simpa [Instr.wf, lenFits] using h
  cases fam
  · simp only [encode, payloadLen, opOf_lenWord _ _ hn]
    rfl
  · simp only [encode, payloadLen, opOf_lenWord _ _ hn]
    rfl

theorem absorb (n : Nat) : Statement (.absorb n) := by
  intro h
  have hn : n < 2 ^ 24 := by simpa [Instr.wf, lenFits] using h
  simp only [encode, payloadLen, opOf_lenWord _ _ hn]
  exact lenOf_lenWord _ _ hn

theorem squeeze (n : Nat) : Statement (.squeeze n) := by
  intro h
  have hn : n < 2 ^ 24 := by simpa [Instr.wf, lenFits] using h
  simp only [encode, payloadLen, opOf_lenWord _ _ hn]
  rfl

theorem digest : Statement .digest := fun _ => rfl

theorem permute : Statement .permute := fun _ => rfl

theorem sload (n : Nat) : Statement (.sload n) := by
  intro h
  have hn : n < 2 ^ 24 := by simpa [Instr.wf, lenFits] using h
  simp only [encode, payloadLen, opOf_lenWord _ _ hn]
  exact lenOf_lenWord _ _ hn

theorem sread : Statement .sread := fun _ => rfl

end PayloadFraming

end Sys2Proof.Laws
end

