-- ==== Sys2Proof/Laws/Exec.lean ====
section
/-!
SUPPORT. What a command can do, said once: it waits for its payload, fails with the code of its first failing check, or has
its effect. Claims about all commands or about all steps are case splits over these.
-/

namespace Sys2Proof.Laws

open Sys2Proof.Machine

/-- The state in which a command's checks are made: its payload has left DIN. -/
def taken (i : Instr) (s : State) : State :=
  match i with
  | .absorb n => { s with din := s.din.drop n, activity := .idle }
  | .sload n => { s with din := s.din.drop n, activity := .idle }
  | .init _ _ => s
  | .squeeze _ => s
  | .digest => s
  | .permute => s
  | .sread => s

/-- The code of the first check that fails, in the order of R162. -/
def checkOf (i : Instr) (s : State) : ErrCode :=
  match i with
  | .init fam level => if (preset? fam level).isSome then .success else .invalidSecurityLevel
  | .absorb _ =>
    if s.configured = false then .notConfigured else if s.phase = .squeezing then .invalidPhase else .success
  | .squeeze _ => if s.configured = false then .notConfigured else .success
  | .digest =>
    if s.configured = false then .notConfigured else if s.mode = .extendable then .invalidMode else .success
  | .permute => .success
  | .sload n => if n = 200 then .success else .invalidLength
  | .sread => .success

/-- The state a command leaves that succeeds with the payload `p` taken. -/
def effect (i : Instr) (p : List Byte) (s : State) : State :=
  match i with
  | .init fam level => ((preset? fam level).map fun q => beginInstance q s).getD s
  | .absorb _ =>
    { s with
      A := (absorbBytes s.rateBytes.toNat p s.A s.buf).1
      buf := (absorbBytes s.rateBytes.toNat p s.A s.buf).2
      err := .success }
  | .squeeze n => emitSqueezed n (enterSqueezing s)
  | .digest => emitSqueezed s.digestBytes.toNat (enterSqueezing s)
  | .permute => { s with A := keccakF s.A, err := .success }
  | .sload _ => { s with A := stateFromBytes p, err := .success }
  | .sread => (doutPut (stateToBytes s.A) s).succeed

theorem exec_waits {i : Instr} {s : State} (h : s.din.length < payloadOf i) :
    exec i s = .next { s with activity := .payload i } := by
  cases i <;> simp only [payloadOf, Nat.not_lt_zero] at h <;>
    simp only [exec, execAbsorb, execSload, dinTake_waits h]

theorem exec_fails {i : Instr} {s : State} (h : payloadOf i ≤ s.din.length) (hc : checkOf i s ≠ .success) :
    exec i s = .next (raiseError (checkOf i s) (taken i s)) := by
  cases i with
  | init fam level =>
    cases hp : preset? fam level <;> simp_all [exec, execInit, checkOf, taken]
  | absorb n =>
    cases h1 : s.configured <;> cases h2 : s.phase <;>
      simp_all [exec, execAbsorb, dinTake_ready (show n ≤ s.din.length from h), absorbTaken, checkOf, taken]
  | squeeze n => cases h1 : s.configured <;> simp_all [exec, execSqueeze, checkOf, taken]
  | digest => cases h1 : s.configured <;> cases h2 : s.mode <;> simp_all [exec, execDigest, checkOf, taken]
  | permute => exact absurd rfl hc
  | sload n =>
    have hl : (s.din.take n).length = n := List.length_take_of_le h
    rw [show exec (.sload n) s = .next (dinTake (.payload (.sload n)) n s sloadTaken) from rfl,
      dinTake_ready (show n ≤ s.din.length from h)]
    by_cases hn : n = 200
    · exact absurd (by simp [checkOf, hn]) hc
    · simp [sloadTaken, hl, hn, checkOf, taken]
  | sread => exact absurd rfl hc

theorem exec_succeeds {i : Instr} {s : State} (h : payloadOf i ≤ s.din.length) (hc : checkOf i s = .success) :
    exec i s = .next (effect i (s.din.take (payloadOf i)) (taken i s)) := by
  cases i with
  | init fam level =>
    cases hp : preset? fam level <;> simp_all [exec, execInit, checkOf, taken, effect]
  | absorb n =>
    cases h1 : s.configured <;> cases h2 : s.phase <;>
      simp_all [exec, execAbsorb, dinTake_ready (show n ≤ s.din.length from h), absorbTaken, checkOf, taken, effect,
        State.succeed, payloadOf]
  | squeeze n => cases h1 : s.configured <;> simp_all [exec, execSqueeze, checkOf, taken, effect]
  | digest => cases h1 : s.configured <;> cases h2 : s.mode <;> simp_all [exec, execDigest, checkOf, taken, effect]
  | permute => rfl
  | sload n =>
    have hl : (s.din.take n).length = n := List.length_take_of_le h
    rw [show exec (.sload n) s = .next (dinTake (.payload (.sload n)) n s sloadTaken) from rfl,
      dinTake_ready (show n ≤ s.din.length from h)]
    by_cases hn : n = 200
    · rw [sloadTaken, if_pos (hl.trans hn)]
      rfl
    · exact absurd hc (by simp [checkOf, hn])
  | sread => rfl

/-- Everything a command can do. -/
theorem exec_cases (i : Instr) (s : State) :
    (s.din.length < payloadOf i ∧ exec i s = .next { s with activity := .payload i }) ∨
    (payloadOf i ≤ s.din.length ∧ checkOf i s ≠ .success ∧
      exec i s = .next (raiseError (checkOf i s) (taken i s))) ∨
    (payloadOf i ≤ s.din.length ∧ checkOf i s = .success ∧
      exec i s = .next (effect i (s.din.take (payloadOf i)) (taken i s))) := by
  by_cases h : payloadOf i ≤ s.din.length
  · by_cases hc : checkOf i s = .success
    · exact .inr (.inr ⟨h, hc, exec_succeeds h hc⟩)
    · exact .inr (.inl ⟨h, hc, exec_fails h hc⟩)
  · exact .inl ⟨by omega, exec_waits (by omega)⟩

/-- A command answers a next state. -/
theorem exec_next (i : Instr) (s : State) : ∃ t, exec i s = .next t := by
  rcases exec_cases i s with ⟨_, h⟩ | ⟨_, _, h⟩ | ⟨_, _, h⟩ <;> exact ⟨_, h⟩

/-- Everything an illegal word can do. -/
theorem runIllegal_cases (n : Nat) (s : State) :
    (s.din.length < n ∧ runIllegal n s = { s with activity := .discard n }) ∨
    (n ≤ s.din.length ∧
      runIllegal n s = raiseError .illegalCommand { s with din := s.din.drop n, activity := .idle }) := by
  by_cases h : n ≤ s.din.length
  · exact .inr ⟨h, by simp [runIllegal, dinTake_ready h]⟩
  · exact .inl ⟨by omega, by simp [runIllegal, dinTake_waits (Nat.not_le.mp h)]⟩

/-- Everything an accepted word can do. -/
theorem runWord_cases (w : Word) (s : State) :
    (∃ i, decode w = .ok i ∧ runWord w s = exec i s) ∨
    (∃ r, decode w = .error r ∧ runWord w s = .next (runIllegal (payloadLen w) s)) := by
  cases h : decode w with
  | ok i => exact .inl ⟨i, rfl, by simp [runWord, h]⟩
  | error r => exact .inr ⟨r, rfl, by simp [runWord, h]⟩

/-- Everything one move of the engine can do. -/
theorem engineStep_cases (s : State) :
    (s.activity = .idle ∧ s.chan = none ∧ engineStep s = .next s) ∨
    (∃ w i, s.activity = .idle ∧ s.chan = some w ∧ decode w = .ok i ∧ engineStep s = exec i { s with chan := none }) ∨
    (∃ w r, s.activity = .idle ∧ s.chan = some w ∧ decode w = .error r ∧
      engineStep s = .next (runIllegal (payloadLen w) { s with chan := none })) ∨
    (∃ i, s.activity = .payload i ∧ engineStep s = exec i s) ∨
    (∃ n, s.activity = .discard n ∧ engineStep s = .next (runIllegal n s)) ∨
    (∃ rest, s.activity = .output rest ∧ engineStep s = .next (doutPut rest s)) := by
  unfold engineStep
  cases ha : s.activity with
  | idle =>
    cases hc : s.chan with
    | none => simp
    | some w =>
      rcases runWord_cases w { s with chan := none } with ⟨i, hd, h⟩ | ⟨r, hd, h⟩
      · right; left
        exact ⟨w, i, rfl, rfl, hd, by simpa [ha] using h⟩
      · right; right; left
        exact ⟨w, r, rfl, rfl, hd, by simpa [ha] using h⟩
  | payload i => simp
  | discard n => simp
  | output rest => simp

/-- Everything a step can do: a move of the engine (after an idle turn of the host, or with the script as it is), or an act of the
host. -/
theorem step_cases (s : State) :
    (step s = engineStep s) ∨
    (∃ a rest, s.host.script = a :: rest ∧
      let s' := { s with host := { s.host with script := rest } }
      (a = .idle ∧ step s = engineStep s') ∨
      (∃ w, a = .present w ∧ s.chan = none ∧ step s = .next { s' with chan := some w }) ∨
      (∃ bs, a = .send bs ∧ step s = .next (send bs s')) ∨
      (∃ n, a = .drain n ∧ step s = .next (drain n s')) ∨
      (∃ i, a = .readStatus i ∧ step s = .next (readStatus i s')) ∨
      (a = .reset ∧ step s = .next (assertReset s'))) := by
  cases h : s.host.script with
  | nil => exact .inl (step_silent h)
  | cons a rest =>
    have hs : step s = hostTurn a rest s := by simp [step, h]
    rw [hs]
    cases a with
    | present w =>
      cases hc : s.chan with
      | none => exact .inr ⟨_, rest, rfl, .inr (.inl ⟨w, rfl, rfl, by simp [hostTurn, present, hc]⟩)⟩
      | some v => exact .inl (by simp [hostTurn, present, hc])
    | send bs => exact .inr ⟨_, rest, rfl, .inr (.inr (.inl ⟨bs, rfl, rfl⟩))⟩
    | drain n => exact .inr ⟨_, rest, rfl, .inr (.inr (.inr (.inl ⟨n, rfl, rfl⟩)))⟩
    | readStatus i => exact .inr ⟨_, rest, rfl, .inr (.inr (.inr (.inr (.inl ⟨i, rfl, rfl⟩))))⟩
    | reset => exact .inr ⟨_, rest, rfl, .inr (.inr (.inr (.inr (.inr ⟨rfl, rfl⟩))))⟩
    | idle => exact .inr ⟨_, rest, rfl, .inl ⟨rfl, rfl⟩⟩

/-! What a succeeding command leaves alone -/

/-- SQUEEZE and DIGEST, once in Squeezing, write A, SQ_OFF, DOUT and ERR, and BUSY while DOUT has no room. -/
theorem emitSqueezed_frame (n : Nat) (s : State) :
    (emitSqueezed n s).configured = s.configured ∧ (emitSqueezed n s).mode = s.mode ∧
    (emitSqueezed n s).level = s.level ∧ (emitSqueezed n s).rateBytes = s.rateBytes ∧
    (emitSqueezed n s).digestBytes = s.digestBytes ∧ (emitSqueezed n s).phase = s.phase ∧
    (emitSqueezed n s).buf = s.buf ∧ (emitSqueezed n s).err = .success ∧ (emitSqueezed n s).sticky = s.sticky ∧
    (emitSqueezed n s).chan = s.chan ∧ (emitSqueezed n s).din = s.din ∧ (emitSqueezed n s).doutDepth = s.doutDepth ∧
    (emitSqueezed n s).statusDraws = s.statusDraws ∧ (emitSqueezed n s).host = s.host := by
  simp [emitSqueezed]

/-- What no succeeding command writes, and ERR and STICKY after it. -/
theorem effect_frame {i : Instr} {s : State} (p : List Byte) (hc : checkOf i s = .success) :
    (effect i p s).chan = s.chan ∧ (effect i p s).din = s.din ∧ (effect i p s).host = s.host ∧
    (effect i p s).doutDepth = s.doutDepth ∧ (effect i p s).statusDraws = s.statusDraws ∧
    (effect i p s).err = .success ∧
    (effect i p s).sticky = (match i with | .init _ _ => false | _ => s.sticky) := by
  cases i with
  | init fam level =>
    cases hp : preset? fam level
    · simp [checkOf, hp] at hc
    · simp [effect, hp]
  | squeeze n => simp [effect, emitSqueezed_frame, enterSqueezing_frame]
  | digest => simp [effect, emitSqueezed_frame, enterSqueezing_frame]
  | _ => simp [effect]

theorem payloadLen_eq_payloadOf {w : Word} {i : Instr} (h : decode w = .ok i) : payloadLen w = payloadOf i := by
  rw [payloadLen_of_decode h]
  cases i <;> rfl

/-- Everything the step can do in which an idle engine accepts a word whose payload is all there. -/
theorem accepts_cases {s : State} {w : Word} (h : s.accepts w) :
    (∃ i, decode w = .ok i ∧ checkOf i s ≠ .success ∧
      step s = .next { s with
        chan := none, din := s.din.drop (payloadLen w), err := checkOf i s, sticky := true }) ∨
    (∃ i, decode w = .ok i ∧ checkOf i s = .success ∧
      step s = .next (effect i (s.din.take (payloadLen w))
        { s with chan := none, din := s.din.drop (payloadLen w) })) ∨
    (∃ r, decode w = .error r ∧
      step s = .next { s with
        chan := none, din := s.din.drop (payloadLen w), err := .illegalCommand, sticky := true }) := by
  obtain ⟨h1, h2, h3, h4⟩ := h
  rw [step_silent h1]
  rcases engineStep_cases s with ⟨_, hn, _⟩ | ⟨v, i, _, hc, hd, h⟩ | ⟨v, r, _, hc, hd, h⟩ | ⟨i, hn, _⟩ | ⟨n, hn, _⟩ |
    ⟨rest, hn, _⟩
  · simp [hn] at h3
  · obtain rfl : v = w := by simpa [h3] using hc.symm
    have hp := payloadLen_eq_payloadOf hd
    have hck : checkOf i { s with chan := none } = checkOf i s := by cases i <;> rfl
    have htk : taken i { s with chan := none } = { s with chan := none, din := s.din.drop (payloadLen v) } := by
      cases i <;> simp_all [taken, payloadOf]
    rw [h]
    rcases exec_cases i { s with chan := none } with ⟨hl, _⟩ | ⟨_, hc, he⟩ | ⟨_, hc, he⟩
    · simp at hl
      omega
    · refine .inl ⟨i, hd, hck ▸ hc, ?_⟩
      rw [he, htk, hck]
      rfl
    · refine .inr (.inl ⟨i, hd, hck ▸ hc, ?_⟩)
      rw [he, htk, hp]
  · obtain rfl : v = w := by simpa [h3] using hc.symm
    refine .inr (.inr ⟨r, hd, ?_⟩)
    rw [h]
    rcases runIllegal_cases (payloadLen v) { s with chan := none } with ⟨hl, _⟩ | ⟨_, he⟩
    · simp at hl
      omega
    · rw [he]
      simp [raiseError, ← h2]
  · simp [h2] at hn
  · simp [h2] at hn
  · simp [h2] at hn

/-! What a command puts out -/

theorem outputStream_of_unplaced {s : State} (h : s.activity.unplaced = []) :
    s.outputStream = s.host.gotBytes ++ s.dout := by
  simp [State.outputStream, h]

theorem emitSqueezed_outputStream (n : Nat) (s : State) :
    (emitSqueezed n s).outputStream = s.host.gotBytes ++ s.dout ++ (squeezeBytes s.rateBytes n s.A s.sqOff).bytes :=
  doutPut_outputStream (squeezeBytes s.rateBytes n s.A s.sqOff).bytes
    { s with A := (squeezeBytes s.rateBytes n s.A s.sqOff).A, sqOff := (squeezeBytes s.rateBytes n s.A s.sqOff).sqOff }

/-- A command's output depends on the instance and the lanes alone. -/
theorem commandOutput_congr (i : Instr) {s t : State} (h1 : t.configured = s.configured) (h2 : t.mode = s.mode)
    (h3 : t.rateBytes = s.rateBytes) (h4 : t.digestBytes = s.digestBytes) (h5 : t.A = s.A) (h6 : t.buf = s.buf)
    (h7 : t.phase = s.phase) (h8 : t.sqOff = s.sqOff) : commandOutput i t = commandOutput i s := by
  cases i <;> simp only [commandOutput, enterSqueezing, finalize, h1, h2, h3, h4, h5, h6, h7] <;>
    cases s.phase <;> simp [h5, h8]

/-- A command that puts nothing out, in a state with no output left to place. -/
theorem silent_output {i : Instr} {s t : State} (hu : s.activity.unplaced = []) (hi : commandOutput i s = [])
    (h1 : t.host = s.host) (h2 : t.dout = s.dout) (h3 : t.activity.unplaced = []) :
    t.outputStream = s.outputStream ++ commandOutput i s := by
  rw [outputStream_of_unplaced hu, outputStream_of_unplaced h3, h1, h2, hi, List.append_nil]

/-- What a command adds to the output stream, in whatever way it ends or waits. -/
theorem exec_outputStream {i : Instr} {s t : State} (hu : s.activity.unplaced = []) (h : exec i s = .next t) :
    t.outputStream = s.outputStream ++ commandOutput i s := by
  have hf := enterSqueezing_frame s
  cases i with
  | init fam level =>
    rcases execInit_cases fam level s with ⟨p, _, he⟩ | ⟨_, he⟩ <;> rw [exec, he] at h <;> cases h <;>
      exact silent_output hu rfl rfl rfl hu
  | absorb n =>
    rcases exec_cases (.absorb n) s with ⟨_, he⟩ | ⟨_, _, he⟩ | ⟨_, _, he⟩ <;> rw [he] at h <;> cases h <;>
      exact silent_output hu rfl rfl rfl rfl
  | squeeze n =>
    rcases execSqueeze_cases n s with ⟨hc, he⟩ | ⟨hc, he⟩ <;> rw [exec, he] at h <;> cases h
    · exact silent_output hu (by simp [commandOutput, hc]) rfl rfl hu
    · rw [emitSqueezed_outputStream, outputStream_of_unplaced hu]
      simp [hf, commandOutput, hc]
  | digest =>
    rcases execDigest_cases s with ⟨hc, he⟩ | ⟨hc, hm, he⟩ | ⟨hc, hm, he⟩ <;> rw [exec, he] at h <;> cases h
    · exact silent_output hu (by simp [commandOutput, hc]) rfl rfl hu
    · exact silent_output hu (by simp [commandOutput, hm]) rfl rfl hu
    · rw [emitSqueezed_outputStream, outputStream_of_unplaced hu]
      simp [hf, commandOutput, hc, hm]
  | permute =>
    cases h
    exact silent_output hu rfl rfl rfl hu
  | sload n =>
    rcases exec_cases (.sload n) s with ⟨_, he⟩ | ⟨_, _, he⟩ | ⟨_, _, he⟩ <;> rw [he] at h <;> cases h <;>
      exact silent_output hu rfl rfl rfl rfl
  | sread =>
    cases h
    rw [outputStream_of_unplaced hu]
    exact doutPut_outputStream (stateToBytes s.A) s

/-- An engine's turn is one move of the engine, and of the host's side it uses up at most an idle act. -/
theorem engineTurn_step {s s' : State} (h : s.engineTurn s') :
    step s = engineStep s' ∧ s' = { s with host := s'.host } ∧ s'.host.gotBytes = s.host.gotBytes ∧
      s'.host.gotStatus = s.host.gotStatus := by
  obtain ⟨h, rfl⟩ | ⟨rest, h, rfl⟩ | ⟨w, rest, h, hc, rfl⟩ := h
  · simp [step, h]
  · simp [step, h, hostTurn]
  · obtain ⟨v, hc'⟩ := Option.ne_none_iff_exists'.mp hc
    exact ⟨by simp [step, h, hostTurn, present, hc'], rfl, rfl, rfl⟩

end Sys2Proof.Laws
end

