-- ==== Sys2Proof/Laws/Serializer.lean ====
section
/-!
SUPPORT. The byte view and the lanes, bit by bit.
-/

namespace Sys2Proof.Laws

open Sys2Proof.Machine

/-- Lane arrays with the same bits are the same. -/
theorem lanes_ext_bits {A B : Lanes} (h : ∀ x y, ∀ z < 64, (A.lane x y).getLsbD z = (B.lane x y).getLsbD z) : A = B :=
  Lanes.ext_lane fun x y => BitVec.eq_of_getLsbD_eq fun z hz => h x y z hz

/-- Lane number 5y + x of the lane order is lane (x, y). -/
theorem laneAt_lane (A : Lanes) (x y : Fin 5) : laneAt A (5 * y.val + x.val) = A.lane x y := by
  unfold laneAt
  congr 1
  · apply Fin.ext
    show (5 * y.val + x.val) % 5 % 5 = x.val
    omega
  · apply Fin.ext
    show (5 * y.val + x.val) / 5 % 5 = y.val
    omega

theorem byteAt_getLsbD (A : Lanes) (k : Nat) {i : Nat} (hi : i < 8) :
    (byteAt A k).getLsbD i = (laneAt A (k / 8)).getLsbD (8 * (k % 8) + i) := by
  simp [byteAt, hi]

@[simp] theorem stateToBytes_length (A : Lanes) : (stateToBytes A).length = 200 := by simp [stateToBytes]

theorem stateToBytes_getD (A : Lanes) {k : Nat} (hk : k < 200) : (stateToBytes A).getD k 0 = byteAt A k := by
  simp [stateToBytes, List.getD, hk]

theorem leLane_getLsbD (l : List Byte) {z : Nat} (hz : z < 64) :
    (leLane l).getLsbD z = (l.getD (z / 8) 0).getLsbD (z % 8) := by
  induction l generalizing z with
  | nil => simp [leLane]
  | cons b bs ih =>
    simp only [leLane, BitVec.getLsbD_or, BitVec.getLsbD_setWidth, BitVec.getLsbD_shiftLeft, hz, decide_true,
      Bool.true_and]
    by_cases h8 : z < 8
    · simp [h8, Nat.div_eq_of_lt h8, Nat.mod_eq_of_lt h8]
    · have hb : b.getLsbD z = false := BitVec.getLsbD_of_ge _ _ (by omega)
      obtain ⟨q, hq⟩ : ∃ q, z / 8 = q + 1 := ⟨z / 8 - 1, by omega⟩
      have hq' : (z - 8) / 8 = q := by omega
      have hr : (z - 8) % 8 = z % 8 := by omega
      rw [hb, ih (by omega)]
      simp [h8, hq, hq', hr]

theorem stateFromBytes_getLsbD (s : List Byte) (x y : Fin 5) {z : Nat} (hz : z < 64) :
    ((stateFromBytes s).lane x y).getLsbD z = (s.getD (8 * (5 * y.val + x.val) + z / 8) 0).getLsbD (z % 8) := by
  simp only [stateFromBytes, Lanes.lane_of]
  rw [leLane_getLsbD _ hz]
  congr 1
  simp only [List.getD]
  rw [List.getElem?_take]
  simp [show z / 8 < 8 by omega]

theorem byteAt_stateFromBytes (s : List Byte) {k : Nat} (hk : k < 200) : byteAt (stateFromBytes s) k = s.getD k 0 := by
  apply BitVec.eq_of_getLsbD_eq
  intro i hi
  have hl := laneAt_lane (stateFromBytes s) ⟨k / 8 % 5, by omega⟩ ⟨k / 8 / 5, by omega⟩
  simp only at hl
  rw [show 5 * (k / 8 / 5) + k / 8 % 5 = k / 8 by omega] at hl
  rw [byteAt_getLsbD _ _ hi, hl, stateFromBytes_getLsbD _ _ _ (by omega)]
  congr 2
  · simp only
    omega
  · omega

theorem xorOnto_length (a b : List Byte) : (xorOnto a b).length = a.length := by
  induction a generalizing b with
  | nil => cases b <;> rfl
  | cons s ss ih =>
    cases b with
    | nil => rfl
    | cons c cs => simp [xorOnto, ih]

theorem xorOnto_getD (a b : List Byte) {k : Nat} (hk : k < a.length) :
    (xorOnto a b).getD k 0 = a.getD k 0 ^^^ b.getD k 0 := by
  induction a generalizing b k with
  | nil => simp at hk
  | cons s ss ih =>
    cases b with
    | nil => simp [xorOnto]
    | cons c cs =>
      cases k with
      | zero => simp [xorOnto]
      | succ k =>
        simp only [xorOnto]
        simpa using ih cs (by simpa using hk)

end Sys2Proof.Laws
end

