-- ==== Sys2Proof/Tests/Slice0.lean ====
section
/-!
SUPPORT. The model's own tests. Expected values come from 95_test_vectors.md (its ids stand in the comments) or are written out
from the encoding tables of 30_encoding.md. The witness theorems at the end show, for each statement with hypotheses, a state
and operands that meet all of them.
-/

namespace Sys2Proof.Tests

open Sys2Proof.Machine

/-! Helpers -/

/-- The next state, if the outcome is one. -/
def after (o : Host.Outcome State Fault Refusal) : Option State :=
  match o with
  | .next t => some t
  | .fault _ => none
  | .refused _ => none

/-- A state just after a successful INIT from reset. -/
def sha3_256 : State := beginInstance ⟨.sha3, 256, 136, 32⟩ State.reset
def shake128 : State := beginInstance ⟨.shake, 128, 168, 0⟩ State.reset
def shake256 : State := beginInstance ⟨.shake, 256, 136, 0⟩ State.reset

/-- `s` with a word on the channel and bytes on DIN. -/
def given (w : Word) (bs : List Byte) (s : State) : State := { s with chan := some w, din := bs }

/-- `s` in Squeezing at offset `off` (with the lanes it has). -/
def squeezingAt (off : BitVec 8) (s : State) : State := { s with phase := .squeezing, sqOff := off }

/-- `s` with the host's script. -/
def scripted (acts : List HostAct) (s : State) : State := { s with host := ⟨acts, [], []⟩ }

/-- pat(n): byte i is i mod 256. -/
def pat (n : Nat) : List Byte := (List.range n).map (BitVec.ofNat 8 ·)

/-- The lanes that are 0 but in lane (x, y). -/
def oneLane (x y : Fin 5) (v : Lane) : Lanes := Lanes.of fun x' y' => if x' = x ∧ y' = y then v else 0

/-! Decoding: one word per command, written bit by bit as LEN RSV FAM OP (R70, R75) -/

theorem test_decode_init_sha3 :
    decode 0b000000000000000100000000_000_0_0001 = .ok (.init .sha3 256) := by decide
theorem test_decode_init_shake :
    decode 0b000000000000000010000000_000_1_0001 = .ok (.init .shake 128) := by decide
theorem test_decode_absorb :
    decode 0b100000000000000000000001_000_0_0010 = .ok (.absorb 8388609) := by decide
theorem test_decode_squeeze :
    decode 0b000000000000000000100000_000_0_0011 = .ok (.squeeze 32) := by decide
theorem test_decode_digest : decode 0b000000000000000000000000_000_0_0100 = .ok .digest := by decide
theorem test_decode_permute : decode 0b000000000000000000000000_000_0_0101 = .ok .permute := by decide
theorem test_decode_sload :
    decode 0b000000000000000011001000_000_0_0110 = .ok (.sload 200) := by decide
theorem test_decode_sread : decode 0b000000000000000000000000_000_0_0111 = .ok .sread := by decide
/-- Bit 31 counts for DIGEST, PERMUTE and SREAD; each RSV bit and a FAM bit outside INIT make the word illegal (R75). -/
theorem test_decode_reserved_fields :
    decode 0b100000000000000000000000_000_0_0100 = .error .reservedField ∧
    decode 0b000000000000000000000001_000_0_0101 = .error .reservedField ∧
    decode 0b000000000000000000000000_000_1_0111 = .error .reservedField ∧
    decode 0b000000000000000100000000_100_0_0001 = .error .reservedField ∧
    decode 0b000000000000000000000001_010_0_0011 = .error .reservedField ∧
    decode 0b000000000000000011001000_000_1_0110 = .error .reservedField := by decide
theorem test_decode_reserved_opcodes :
    [0x0, 0x8, 0x9, 0xA, 0xB, 0xC, 0xD, 0xE, 0xF].all
      (fun w : Word => decode w = .error .reservedOpcode ∧ payloadLen (0xFFFFFF00 ||| w) = 0) = true := by decide
theorem test_table_word : decodeTableWord 32 0x0000C806 = some (.sload 200) ∧ decodeTableWord 32 0 = none := by decide

/-! WellFormed: an operand that does not fit LEN is refused -/

theorem test_wf_init : (Instr.init .sha3 16777215).wf = true ∧ (Instr.init .sha3 16777216).wf = false := by decide
theorem test_wf_absorb : (Instr.absorb 16777215).wf = true ∧ (Instr.absorb 16777216).wf = false := by decide
theorem test_wf_squeeze : (Instr.squeeze 16777215).wf = true ∧ (Instr.squeeze 16777216).wf = false := by decide
theorem test_wf_sload : (Instr.sload 16777215).wf = true ∧ (Instr.sload 16777216).wf = false := by decide

/-! The permutation and the serializer -/

/-- PERM-1. -/
theorem test_keccakF_zero :
    (keccakF Lanes.zero).lane 0 0 = 0xF1258F7940E1DDE7 ∧ (keccakF Lanes.zero).lane 4 4 = 0xEAF1FF7B5CECA249 ∧
    (keccakF Lanes.zero).lane 1 3 = 0x64BEFEF28CC970F2 := by decide +kernel
/-- THETA-1. -/
theorem test_theta :
    theta (oneLane 0 0 1) =
      Lanes.of fun x y => if x = 1 then 1 else if x = 4 then 2 else if x = 0 ∧ y = 0 then 1 else 0 := by decide +kernel
/-- RHO-1. -/
theorem test_rho :
    let R := rho (Lanes.of fun _ _ => 1)
    R.lane 0 0 = 1 ∧ R.lane 1 0 = 2 ∧ R.lane 2 0 = 0x4000000000000000 ∧ R.lane 4 4 = 0x0000000000004000 ∧
    R.lane 1 1 = 0x0000100000000000 ∧ R.lane 0 2 = 8 := by decide +kernel
/-- PI-1. -/
theorem test_pi :
    piStep (Lanes.of fun x y => BitVec.ofNat 64 (x.val + 5 * y.val)) =
      ⟨⟨0, 6, 12, 18, 24⟩, ⟨3, 9, 10, 16, 22⟩, ⟨1, 7, 13, 19, 20⟩, ⟨4, 5, 11, 17, 23⟩, ⟨2, 8, 14, 15, 21⟩⟩ := by
  decide +kernel
/-- CHI-3. -/
theorem test_chi :
    (chi ⟨⟨0xFFFF0000FFFF0000, 0xFF00FF00FF00FF00, 0xF0F0F0F0F0F0F0F0, 0xCCCCCCCCCCCCCCCC, 0xAAAAAAAAAAAAAAAA⟩,
      ⟨0, 0, 0, 0, 0⟩, ⟨0, 0, 0, 0, 0⟩, ⟨0, 0, 0, 0, 0⟩, ⟨0, 0, 0, 0, 0⟩⟩).a0 =
    ⟨0xFF0F00F0FF0F00F0, 0xF30CF30CF30CF30C, 0xD2D2D2D2D2D2D2D2, 0x9999CCCC9999CCCC, 0xAAAA55AAAAAA55AA⟩ := by
  decide +kernel
/-- IOTA-1. -/
theorem test_iota : rcTable.length = 24 ∧ iota Lanes.zero (rcTable.getD 23 0) = oneLane 0 0 0x8000000080008008 := by
  decide +kernel
/-- SER-1 and SER-2. -/
theorem test_serializer :
    (stateFromBytes (pat 200)).lane 0 1 = 0x2F2E2D2C2B2A2928 ∧ (stateFromBytes (pat 200)).lane 1 0 = 0x0F0E0D0C0B0A0908 ∧
    byteAt (oneLane 1 3 0x80) 128 = 0x80 := by decide +kernel

/-! Padding -/

/-- PAD-2 and PAD-5: both markers in one byte. -/
theorem test_pad_one_byte_left :
    padBlock 136 .fixed (pat 135) = pat 135 ++ [0x86] ∧ padBlock 72 .fixed (pat 71) = pat 71 ++ [0x86] := by
  decide +kernel
/-- PAD-6. -/
theorem test_pad_shake :
    padBlock 168 .extendable [0x61, 0x62, 0x63] = [0x61, 0x62, 0x63, 0x1F] ++ List.replicate 163 0 ++ [0x80] := by
  decide +kernel

/-! The commands, one step each -/

/-- IN-2, IN-5: the status words after INIT, which takes the word from the channel. -/
theorem test_init_status :
    (after (step (given 0x00010001 [] State.reset))).map (fun t => (t.srWord 0, t.srWord 1, t.srWord 2)) =
      some (0x00000020, 0x20880100, 0) ∧
    (after (step (given 0x00008011 [] State.reset))).map (fun t => (t.srWord 0, t.srWord 1, t.srWord 2)) =
      some (0x000000A0, 0x00A80080, 0) := by decide
/-- ERR-13: a failing INIT keeps the old instance. -/
theorem test_init_bad_level :
    (after (step (given 0x00006401 [] { sha3_256 with buf := [0] }))).map
        (fun t => (t.srWord 0, t.srWord 1, t.srWord 2)) = some (0x00000031, 0x20880100, 0x00000001) := by decide
/-- SP-7b, SP-7a: one byte short of a block, and a whole block, which is absorbed at once. -/
theorem test_absorb :
    (after (step (given 0x00008702 (pat 135) sha3_256))).map (fun t => (t.srWord 2, t.A, t.din)) =
      some (0x00000087, Lanes.zero, []) ∧
    (after (step (given 0x00008802 (pat 136) sha3_256))).map (fun t => (t.srWord 2, t.A.lane 0 0)) =
      some (0, 0xC9834334D2362F28) := by decide +kernel
/-- ERR-3, and R194: one byte short of its payload, the engine waits with the byte left on DIN. -/
theorem test_absorb_fails_or_waits :
    (after (step (given 0x00000102 [0] (squeezingAt 0 shake256)))).map (fun t => (t.srWord 0, t.din)) =
      some (0x000000F2, []) ∧
    (after (step (given 0x00000202 [7] sha3_256))).map (fun t => (t.busy, t.din, t.activity)) =
      some (true, [7], .payload (.absorb 2)) := by decide
/-- SP-5, its first 10 bytes (SP-10). -/
theorem test_squeeze :
    (after (step (given 0x00000A03 [] shake128))).map (fun t => (t.dout, t.srWord 2)) =
      some ([0x7f, 0x9c, 0x2b, 0xa4, 0xe8, 0x8f, 0x82, 0x7d, 0x61, 0x60], 0x00000A00) := by decide +kernel
/-- SP-12: SQUEEZE 0 finalizes. -/
theorem test_squeeze_nothing :
    (after (step (given 0x00000003 [] shake128))).map (fun t => (t.dout, t.srWord 0, t.srWord 2, t.A.lane 0 0)) =
      some ([], 0x000000E0, 0, 0x7D828FE8A42B9C7F) := by decide +kernel
/-- KAT-2: SHA3-256 of e9, its first 8 bytes, and the status after it (PROG-2). -/
theorem test_digest :
    (after (step (given 0x00000004 [] { sha3_256 with buf := [0xe9] }))).map
        (fun t => (t.dout.take 8, t.dout.length, t.srWord 0, t.srWord 2)) =
      some ([0xf0, 0xd0, 0x4d, 0xd1, 0xe6, 0xcf, 0xc2, 0x9a], 32, 0x00000060, 0x00002000) := by decide +kernel
/-- ERR-4: no digest of a SHAKE instance, and no finalization; ERR-2: code 6 before the first INIT. -/
theorem test_digest_fails :
    (after (step (given 0x00000004 [] shake256))).map (fun t => (t.srWord 0, t.srWord 2, t.dout)) =
      some (0x000000B3, 0, []) ∧
    (after (step (given 0x00000004 [] State.reset))).map (fun t => (t.srWord 0, t.dout)) = some (0x00000016, []) := by
  decide
/-- PERM-1, by command; no instance is needed. -/
theorem test_permute :
    (after (step (given 0x00000005 [] State.reset))).map (fun t => (t.srWord 0, t.A.lane 4 3)) =
      some (0, 0x8C3EE88A1CCF32C8) := by decide +kernel
/-- SER-3. -/
theorem test_sload :
    (after (step (given 0x0000C806 (pat 201) State.reset))).map (fun t => (t.srWord 0, t.A.lane 4 4, t.din)) =
      some (0, 0xC7C6C5C4C3C2C1C0, [200]) := by decide +kernel
/-- ERR-7: 199 bytes are taken and nothing is loaded. -/
theorem test_sload_invalid_length :
    (after (step (given 0x0000C706 (pat 200) State.reset))).map (fun t => (t.srWord 0, t.A, t.din)) =
      some (0x00000014, Lanes.zero, [199]) := by decide +kernel
/-- SER-2 by command: byte 128 of the view. -/
theorem test_sread :
    (after (step (given 0x00000007 [] { State.reset with A := oneLane 1 3 0x80 }))).map
        (fun t => (t.dout.length, t.dout.getD 128 0, t.dout.getD 127 0, t.srWord 0)) = some (200, 0x80, 0, 0) := by
  decide +kernel
/-- ERR-11 and ENC-16: IllegalCommand before NotConfigured, the payload still taken. -/
theorem test_illegal_takes_payload :
    (after (step (given 0x00000312 [1, 2, 3, 4] State.reset))).map (fun t => (t.srWord 0, t.din)) =
      some (0x00000015, [4]) := by decide

/-! Waiting for room -/

/-- R195: with room for two bytes, two of the 200 are placed. -/
theorem test_wait_for_room :
    (after (step (given 0x00000007 [] { State.reset with A := stateFromBytes (pat 200), doutDepth := 2 }))).map
        (fun t => (t.busy, t.dout, t.activity.unplaced.length)) = some (true, [0, 1], 198) := by decide +kernel

/-! The host's names -/

theorem test_withFetchWord :
    (after (step (State.reset.withFetchWord 32 0x00010011))).map (fun t => (t.srWord 0, t.srWord 1)) =
      some (0x000000A0, 0x00880100) := by decide

/-! Source lines (R80 to R86) -/

theorem test_read_init :
    readLine "INIT SHA3, 256 ; begin".toList = some (some (.init .sha3 256)) ∧
    readLine "INIT SHAKE, 0x80".toList = some (some (.init .shake 128)) := by decide +kernel
theorem test_read_payloads :
    readLine "ABSORB [e9]".toList = some (some (.absorb none [0xE9])) ∧
    readLine "ABSORB 2, \"ab\"".toList = some (some (.absorb (some 2) [0x61, 0x62])) ∧
    readLine "SLOAD 200, zero".toList = some (some (.sloadZero 200)) := by decide +kernel
theorem test_read_pseudo :
    (readLine "SHAKE 128, \"abc\", 255".toList).map (·.bind assemble) = some none ∧
    (readLine "SHAKE 128, \"a\", 256".toList).map (·.bind assemble) =
      some (some [.present 0x00008011, .present 0x00000102, .send [0x61], .present 0x00002003]) := by decide +kernel
theorem test_assemble_counts :
    assemble (.absorb none [0xE9]) = some [.present 0x00000102, .send [0xE9]] ∧
    assemble (.absorb (some 2) [0xE9]) = none ∧ assemble (.squeeze 16777216) = none := by decide

/-! Witnesses: for each statement with hypotheses, a state and operands that meet all of them. Where a statement has several
clauses, one for each; `accepts` and `engineTurn` are unfolded by `⟨…⟩`. -/

theorem sha3_256_inv : Inv sha3_256 := by
  constructor <;> simp [sha3_256, beginInstance, State.reset, Activity.legal]
  exact ⟨_, .tail _ (.head _), rfl, rfl, rfl, rfl⟩

/-- Also for ResetInputLeavesTheHostSide. -/
theorem witness_ResetInputRestoresResetValues :
    (scripted [.reset, .idle] { sha3_256 with din := [1], activity := .output [2] }).host.script = .reset :: [.idle] := rfl

theorem witness_StreamTransfersKeepOrder :
    (scripted [.send [1, 2]] sha3_256).host.script = .send [1, 2] :: [] ∧
    (scripted [.drain 3] { sha3_256 with dout := [1, 2] }).host.script = .drain 3 :: [] := ⟨rfl, rfl⟩

theorem witness_ChannelHoldsOneWord :
    ((scripted [.present 4] sha3_256).host.script = .present 4 :: [] ∧ (scripted [.present 4] sha3_256).chan = none) ∧
    (∃ s : State, s.chan = some 4 ∧ s.busy = true ∧ ∀ rest, s.host.script ≠ .reset :: rest) ∧
    ((given 4 [] sha3_256).chan = some 4 ∧ (given 4 [] sha3_256).activity = .idle ∧
      (given 4 [] sha3_256).host.script = []) :=
  ⟨⟨rfl, rfl⟩, ⟨scripted [.present 5] { sha3_256 with chan := some 4, activity := .output [1] }, rfl, rfl, by simp [scripted]⟩,
    rfl, rfl, rfl⟩

theorem witness_StatusReadHasNoSideEffect :
    (scripted [.readStatus 3] { sha3_256 with activity := .discard 1 }).host.script = .readStatus 3 :: [] ∧
    (scripted [.readStatus 0] sha3_256).busy = false := ⟨rfl, rfl⟩

theorem witness_StatusFieldsShowRegisters :
    (squeezingAt 168 shake128).busy = false ∧
    ∀ e : ErrCode, (raiseError e shake128).busy = false ∧ (raiseError e shake128).err = e :=
  ⟨rfl, fun _ => ⟨rfl, rfl⟩⟩

theorem witness_WordsDecodeByMaskAndMatch :
    (0xFFFFFF11 : Word) &&& 0x000000EF = 0x00000001 ∧ (0xFFFFFF02 : Word) &&& 0x000000FF = 0x00000002 ∧
    (0x00000003 : Word) &&& 0x000000FF = 0x00000003 ∧ (0x0000C806 : Word) &&& 0x000000FF = 0x00000006 ∧
    ((0x80000004 : Word) &&& 0x000000EF ≠ 0x00000001 ∧ (0x80000004 : Word) &&& 0x000000FF ≠ 0x00000002 ∧
      (0x80000004 : Word) &&& 0x000000FF ≠ 0x00000003 ∧ (0x80000004 : Word) ≠ 0x00000004 ∧ (0x80000004 : Word) ≠ 0x00000005 ∧
      (0x80000004 : Word) &&& 0x000000FF ≠ 0x00000006 ∧ (0x80000004 : Word) ≠ 0x00000007) := by decide

theorem witness_EncodedCommandDecodesToItself :
    (Instr.init .shake 16777215).wf = true ∧ (Instr.absorb 16777215).wf = true ∧ (Instr.squeeze 0).wf = true ∧
    (Instr.sload 200).wf = true ∧ Instr.digest.wf = true ∧ Instr.permute.wf = true ∧ Instr.sread.wf = true := by decide

theorem witness_LegalWordIsEncodingOfItsCommand :
    decode 0xFFFFFF11 = .ok (.init .shake 16777215) ∧ decode 0x00000007 = .ok .sread := by decide

theorem witness_AssemblerLinesEncode :
    (16777215 < 2 ^ 24 ∧ 2 ^ 24 ≤ 16777216 ∧ ([0xE9] : List Byte).length < 2 ^ 24 ∧ ([] : List Byte).length < 2 ^ 24) ∧
    ∀ n : Nat, ∃ bs : List Byte, n ≤ bs.length :=
  ⟨by decide, fun n => ⟨List.replicate n 0, List.length_replicate.ge⟩⟩

theorem witness_StepRunsDecodedCommand :
    (∃ s s' : State, s.engineTurn s' ∧ s.activity = .idle ∧ s.chan = some 5 ∧ decode 5 = .ok .permute) ∧
    (∃ s s' : State, s.engineTurn s' ∧ s.activity = .idle ∧ s.chan = some 0x00000312 ∧
      decode 0x00000312 = .error .reservedField ∧ s.din.length = payloadLen 0x00000312) ∧
    (∃ s s' : State, s.engineTurn s' ∧ s.activity = .idle ∧ s.chan = some 0x00000312 ∧
      decode 0x00000312 = .error .reservedField ∧ s.din.length + 1 = payloadLen 0x00000312) ∧
    (∃ s s' : State, s.engineTurn s' ∧ s.activity = .payload (.absorb 2)) ∧
    (∃ s s' : State, s.engineTurn s' ∧ s.activity = .discard 2 ∧ s.din.length = 2) ∧
    (∃ s s' : State, s.engineTurn s' ∧ s.activity = .discard 2 ∧ s.din.length = 1) ∧
    (∃ s s' : State, s.engineTurn s' ∧ s.activity = .output [1, 2] ∧ s.doutDepth = s.dout.length + 1) ∧
    (∃ s s' : State, s.engineTurn s' ∧ s.activity = .idle ∧ s.chan = none) :=
  ⟨⟨given 5 [] sha3_256, _, .inl ⟨rfl, rfl⟩, rfl, rfl, by decide⟩,
    ⟨scripted [.present 4] (given 0x00000312 [1, 2, 3] sha3_256), _, .inr (.inr ⟨4, [], rfl, by decide, rfl⟩), rfl, rfl,
      by decide, by decide⟩,
    ⟨scripted [.idle] (given 0x00000312 [1, 2] sha3_256), _, .inr (.inl ⟨_, rfl, rfl⟩), rfl, rfl, by decide, by decide⟩,
    ⟨scripted [.idle] { sha3_256 with activity := .payload (.absorb 2) }, _, .inr (.inl ⟨_, rfl, rfl⟩), rfl⟩,
    ⟨scripted [.idle] { sha3_256 with activity := .discard 2, din := [1, 2] }, _, .inr (.inl ⟨_, rfl, rfl⟩), rfl, rfl⟩,
    ⟨{ sha3_256 with activity := .discard 2, din := [1] }, _, .inl ⟨rfl, rfl⟩, rfl, rfl⟩,
    ⟨scripted [.idle] { sha3_256 with activity := .output [1, 2], dout := [0], doutDepth := 2 }, _,
      .inr (.inl ⟨_, rfl, rfl⟩), rfl, rfl⟩,
    ⟨State.reset, _, .inl ⟨rfl, rfl⟩, rfl, rfl⟩⟩

theorem accepts_given (w : Word) (bs : List Byte) (h : payloadLen w ≤ bs.length) :
    (given w bs sha3_256).accepts w ∧ (given w bs State.reset).accepts w := ⟨⟨rfl, rfl, rfl, h⟩, rfl, rfl, rfl, h⟩

theorem witness_IllegalWordCompletesWithIllegalCommand :
    (given 0x00000312 [1, 2, 3] State.reset).accepts 0x00000312 ∧ decode 0x00000312 = .error .reservedField ∧
    (given 0 [] State.reset).accepts 0 ∧ decode 0 = .error .reservedOpcode :=
  ⟨(accepts_given _ _ (by decide)).2, by decide, (accepts_given _ _ (by decide)).2, by decide⟩

/-- The payload is there exactly. -/
theorem witness_EveryAcceptedWordTakesItsPayload : (given 0x00000206 [1, 2] State.reset).accepts 0x00000206 :=
  (accepts_given _ _ (by decide)).2

/-- One state and word for each code, and DOUT with exactly the room that SREAD needs. -/
theorem witness_ResultCodeInCheckOrder :
    (∃ (s : State) (w : Word), s.accepts w ∧ decode w = .error .reservedOpcode) ∧
    (∃ (s : State) (w : Word), s.accepts w ∧ decode w = .ok (.absorb 1) ∧ s.configured = false ∧
      s.dout.length + (commandOutput (.absorb 1) s).length ≤ s.doutDepth) ∧
    (∃ (s : State) (w : Word), s.accepts w ∧ decode w = .ok (.init .sha3 100) ∧
      s.dout.length + (commandOutput (.init .sha3 100) s).length ≤ s.doutDepth) ∧
    (∃ (s : State) (w : Word), s.accepts w ∧ decode w = .ok (.absorb 1) ∧ s.configured = true ∧ s.phase = .squeezing ∧
      s.dout.length + (commandOutput (.absorb 1) s).length ≤ s.doutDepth) ∧
    (∃ (s : State) (w : Word), s.accepts w ∧ decode w = .ok .digest ∧ s.configured = true ∧ s.mode = .extendable ∧
      s.dout.length + (commandOutput .digest s).length ≤ s.doutDepth) ∧
    (∃ (s : State) (w : Word), s.accepts w ∧ decode w = .ok (.sload 0) ∧
      s.dout.length + (commandOutput (.sload 0) s).length ≤ s.doutDepth) ∧
    (∃ (s : State) (w : Word), s.accepts w ∧ decode w = .ok .sread ∧
      s.dout.length + (commandOutput .sread s).length = s.doutDepth) :=
  ⟨⟨given 0 [] State.reset, 0, (accepts_given _ _ (by decide)).2, by decide⟩,
    ⟨given 0x00000102 [0] State.reset, _, (accepts_given _ _ (by decide)).2, by decide, rfl, by decide⟩,
    ⟨given 0x00006401 [] sha3_256, _, (accepts_given _ _ (by decide)).1, by decide, by decide⟩,
    ⟨given 0x00000102 [0] (squeezingAt 0 shake256), 0x00000102, ⟨rfl, rfl, rfl, by decide⟩, by decide, rfl, rfl, by decide⟩,
    ⟨given 4 [] shake256, 4, ⟨rfl, rfl, rfl, by decide⟩, by decide, rfl, rfl, by decide⟩,
    ⟨given 6 [] State.reset, 6, (accepts_given _ _ (by decide)).2, by decide, by decide⟩,
    ⟨{ given 7 [] sha3_256 with doutDepth := 200 }, 7, ⟨rfl, rfl, rfl, by decide⟩, by decide, by decide +kernel⟩⟩

theorem witness_FailingCommandChangesOnlyErrAndSticky :
    ∃ (s t : State) (w : Word), s.accepts w ∧ step s = .next t ∧ t.busy = false ∧ t.err ≠ .success :=
  ⟨given 0x00006401 [] sha3_256, _, _, (accepts_given _ _ (by decide)).1, rfl, rfl, by decide⟩

theorem witness_StickySetByFailureClearedByInit :
    (∃ (s t : State) (w : Word), s.accepts w ∧ step s = .next t ∧ t.busy = false ∧ t.err ≠ .success) ∧
    (∃ (s t : State) (w : Word), s.accepts w ∧ step s = .next t ∧ t.err = .success ∧ decode w = .ok (.init .shake 128)) ∧
    (∃ (s t : State) (w : Word), s.accepts w ∧ step s = .next t ∧ t.err = .success ∧ decode w = .ok .sread) :=
  ⟨witness_FailingCommandChangesOnlyErrAndSticky,
    ⟨given 0x00008011 [] sha3_256, _, _, (accepts_given _ _ (by decide)).1, rfl, by decide, by decide⟩,
    ⟨given 0x00000007 [] sha3_256, _, _, (accepts_given _ _ (by decide)).1, rfl, rfl, by decide⟩⟩

theorem witness_AcceptedWordCompletesInOneStep :
    (∃ (s : State) (w : Word), s.accepts w ∧ decode w = .ok .sread ∧ s.dout.length + 200 ≤ s.doutDepth) ∧
    (∃ (s : State) (w : Word), s.accepts w ∧ decode w = .ok .digest ∧ s.configured = true ∧ s.mode = .fixed ∧
      s.dout.length + s.digestBytes.toNat ≤ s.doutDepth) ∧
    (∃ (s : State) (w : Word), s.accepts w ∧ decode w = .ok (.squeeze 16777215) ∧
      s.dout.length + 16777215 ≤ s.doutDepth) :=
  ⟨⟨{ given 7 [] sha3_256 with doutDepth := 200 }, 7, ⟨rfl, rfl, rfl, by decide⟩, by decide, by decide⟩,
    ⟨given 4 [] sha3_256, 4, (accepts_given _ _ (by decide)).1, by decide, rfl, rfl, by decide⟩,
    ⟨given 0xFFFFFF03 [] sha3_256, 0xFFFFFF03, (accepts_given _ _ (by decide)).1, by decide, by decide⟩⟩

theorem witness_MissingPayloadIsWaitedFor :
    (given 0x00000202 [1] sha3_256).host.script = [] ∧ (given 0x00000202 [1] sha3_256).activity = .idle ∧
    (given 0x00000202 [1] sha3_256).chan = some 0x00000202 ∧
    (given 0x00000202 [1] sha3_256).din.length < payloadLen 0x00000202 ∧
    payloadLen 0x00000202 ≤ ((given 0x00000202 [1] sha3_256).din ++ [2]).length := by decide

/-- DOUT full, DOUT with room for a part, and DOUT with room for exactly what is left. -/
theorem witness_FullDoutIsWaitedFor :
    (∃ s : State, s.host.script = [] ∧ s.activity = .output [1, 2] ∧ s.doutDepth ≤ s.dout.length) ∧
    (∃ s : State, s.host.script = [] ∧ s.activity = .output [1, 2] ∧ s.dout.length + 1 = s.doutDepth) ∧
    (∃ s : State, s.host.script = [] ∧ s.activity = .output [1, 2] ∧ s.dout.length + 2 = s.doutDepth) :=
  ⟨⟨{ sha3_256 with activity := .output [1, 2], doutDepth := 1, dout := [0] }, rfl, rfl, by decide⟩,
    ⟨{ sha3_256 with activity := .output [1, 2], doutDepth := 2, dout := [0] }, rfl, rfl, rfl⟩,
    ⟨{ sha3_256 with activity := .output [1, 2], doutDepth := 3, dout := [0] }, rfl, rfl, rfl⟩⟩

/-- A step that accepts SREAD with bytes on DOUT, a step of a waiting output, and a drain. -/
theorem witness_OutputStreamOnlyGrows :
    (∃ s t s' : State, step s = .next t ∧ (∀ rest, s.host.script ≠ .reset :: rest) ∧ s.engineTurn s' ∧ s.activity = .idle ∧
      s.chan = some 7 ∧ decode 7 = .ok .sread ∧ s.outputStream = [3, 4] ∧ t.outputStream.length = 202) ∧
    (∃ s t : State, s.activity.legal ∧ step s = .next t ∧ (∀ rest, s.host.script ≠ .reset :: rest) ∧
      s.activity = .output [5] ∧ t.dout = [3, 4, 5]) ∧
    (∃ s t : State, s.activity.legal ∧ step s = .next t ∧ (∀ rest, s.host.script ≠ .reset :: rest) ∧
      s.chan = some 7 ∧ (∀ s', ¬ s.engineTurn s') ∧ t.host.gotBytes = [3]) :=
  ⟨⟨given 7 [] { sha3_256 with dout := [3, 4] }, _, _, rfl, by simp [given, sha3_256, beginInstance, State.reset],
      .inl ⟨rfl, rfl⟩, rfl, rfl, by decide, rfl, by decide +kernel⟩,
    ⟨{ sha3_256 with dout := [3, 4], activity := .output [5] }, _, by simp [Activity.legal], rfl,
      by simp [sha3_256, beginInstance, State.reset], rfl, rfl⟩,
    ⟨scripted [.drain 1] (given 7 [] { sha3_256 with dout := [3, 4] }), _, trivial, rfl, by simp [scripted], rfl,
      by simp [State.engineTurn, scripted], rfl⟩⟩

theorem witness_StepKeepsInvariant : ∃ s t : State, Inv s ∧ step s = .next t ∧ t ≠ s :=
  ⟨{ sha3_256 with host := ⟨[.present 4], [], []⟩ }, _, { sha3_256_inv with }, rfl, by decide⟩

/-- The word is an INIT that fails (level 100). -/
theorem witness_OnlyInitAndResetStartAnInstance :
    ∃ s t : State, s.activity.legal ∧ step s = .next t ∧ (∀ rest, s.host.script ≠ .reset :: rest) ∧
      (s.activity = .idle → ∀ w fam level, s.chan = some w →
        (fam, level) ∈ [(Family.sha3, 224), (.sha3, 256), (.sha3, 384), (.sha3, 512), (.shake, 128), (.shake, 256)] →
        decode w ≠ .ok (.init fam level)) ∧
      s.chan = some 0x00006401 ∧ decode 0x00006401 = .ok (.init .sha3 100) ∧ s.phase = .squeezing :=
  ⟨given 0x00006401 [] (squeezingAt 0 sha3_256), _, trivial, rfl,
    by simp [given, squeezingAt, sha3_256, beginInstance, State.reset],
    fun _ w fam level h hm hd => by
      obtain rfl : (0x00006401 : Word) = w := by simpa [given] using h
      rw [show decode 0x00006401 = .ok (.init .sha3 100) by decide] at hd
      cases hd
      exact absurd hm (by decide), rfl, by decide, rfl⟩

theorem witness_InitBeginsInstanceOrRejects :
    ((Family.shake, 256, 136, 0) : Family × Nat × BitVec 8 × BitVec 8) ∈
      [(Family.sha3, 224, (144 : BitVec 8), (28 : BitVec 8)), (.sha3, 256, 136, 32), (.sha3, 384, 104, 48),
       (.sha3, 512, 72, 64), (.shake, 128, 168, 0), (.shake, 256, 136, 0)] ∧
    ((Family.sha3, 128) : Family × Nat) ∉
      [(Family.sha3, 224), (.sha3, 256), (.sha3, 384), (.sha3, 512), (.shake, 128), (.shake, 256)] ∧
    ((Family.sha3, 65760) : Family × Nat) ∉
      [(Family.sha3, 224), (.sha3, 256), (.sha3, 384), (.sha3, 512), (.shake, 128), (.shake, 256)] := by decide

theorem witness_ConfigurationFollowsFormulas : Inv sha3_256 ∧ sha3_256.configured = true := ⟨sha3_256_inv, rfl⟩

/-- ABSORB on a buffer one byte short of a block, for AbsorbRunsItsLoop, AbsorbEqualsBlockForm and AbsorbKeepsEveryByte. -/
theorem witness_Absorb :
    ∃ (s t : State), s.configured = true ∧ s.phase = .absorbing ∧ s.buf.length < s.rateBytes.toNat ∧ 1 ≤ s.din.length ∧
      s.buf.length + 1 = s.rateBytes.toNat ∧ exec (.absorb 1) s = .next t :=
  ⟨{ sha3_256 with buf := List.replicate 135 0, din := [5] }, _, rfl, rfl, by decide +kernel, by decide, by decide +kernel,
    rfl⟩

theorem witness_AbsorbStreamingEquivalence :
    ([0, 3, 1] : List Nat) ≠ [] ∧ [0, 3, 1].sum ≤ ({ sha3_256 with din := [1, 2, 3, 4] } : State).din.length := by decide

theorem witness_BlockIsXoredBitForBit :
    (List.replicate 200 0 : List Byte).length ≤ 200 ∧ (pat 136).length ≤ 200 ∧ (pat 136).length ≤ 136 := by decide +kernel

theorem witness_PadBlockIsBitPadding : (pat 71).length < 72 ∧ ([] : List Byte).length < 1 := by decide +kernel

theorem witness_FirstOutputCommandFinalizes :
    sha3_256.configured = true ∧ sha3_256.phase = .absorbing ∧ (∃ n, Instr.squeeze 0 = .squeeze n) ∧
    (Instr.digest = .digest ∧ sha3_256.mode = .fixed) := ⟨rfl, rfl, ⟨0, rfl⟩, rfl, rfl⟩

/-- At a used-up block (SQ_OFF = RATE_BYTES), with exactly the room needed; also for SqueezeWorkIsBounded. -/
theorem witness_SqueezeEmitsNextStreamBytes :
    ∃ s t : State, s.configured = true ∧ s.phase = .squeezing ∧ 0 < s.rateBytes.toNat ∧ s.sqOff.toNat = s.rateBytes.toNat ∧
      s.dout.length + 1 = s.doutDepth ∧ exec (.squeeze 1) s = .next t :=
  ⟨{ squeezingAt 168 shake128 with doutDepth := 1 }, _, rfl, rfl, by decide, by decide, rfl, rfl⟩

theorem witness_SqueezeContinuation : shake128.dout.length + 168 + 2 ≤ shake128.doutDepth := by decide

theorem witness_Digest :
    sha3_256.configured = true ∧ sha3_256.mode = .fixed ∧
    sha3_256.dout.length + 2 * sha3_256.digestBytes.toNat ≤ sha3_256.doutDepth := by decide

theorem witness_OutputIsIndependentOfDoutDepth :
    sha3_256.activity = .idle ∧ (Instr.squeeze 300 = .squeeze 300 ∨ Instr.squeeze 300 = .digest ∨ Instr.squeeze 300 = .sread) :=
  ⟨rfl, .inl rfl⟩

theorem witness_SloadLoadsByteView :
    (200 : Nat) ≤ ({ State.reset with din := pat 200 } : State).din.length ∧
    (201 : Nat) ≤ ({ State.reset with din := pat 201 } : State).din.length ∧ (201 : Nat) ≠ 200 := by decide +kernel

theorem witness_SreadEmitsByteView : ({ State.reset with doutDepth := 200 } : State).dout.length + 200 ≤ 200 := by decide

theorem witness_ByteViewBitOrder : (63 : Nat) < 64 := by decide

theorem witness_SerializerRoundTrip : (pat 200).length = 200 := by decide +kernel

theorem witness_RotateMovesBits : (63 : Nat) < 64 ∧ (0 : Nat) < 64 := by decide

theorem witness_ThetaAddsTwoColumnParities : (0 : Nat) < 64 := by decide

theorem witness_RawCommandsLeaveTheSession :
    ∃ s t u v : State, exec .permute s = .next t ∧ exec .sread s = .next u ∧ exec (.sload 1) s = .next v :=
  ⟨sha3_256, _, _, _, rfl, rfl, rfl⟩

theorem witness_SpongeCommandsFrame :
    ∃ s t u v w : State, exec (.absorb 1) s = .next t ∧ exec (.squeeze 1) s = .next u ∧ exec .digest s = .next v ∧
      exec (.init .shake 128) s = .next w :=
  ⟨sha3_256, _, _, _, _, rfl, rfl, rfl, rfl⟩

theorem witness_EngineComputesTheSponge :
    (⟨.sha3, 256, 136, 32⟩ : Preset) ∈ presetTable ∧ ({ State.reset with din := [0xE9, 1] } : State).din = [0xE9] ++ [1] ∧
    State.reset.dout.length + 32 ≤ State.reset.doutDepth ∧
    (Instr.digest = .squeeze 32 ∨ (Instr.digest = .digest ∧ Family.sha3 = .sha3 ∧ 32 = 256 / 8)) := by decide

/-- Output lengths 0 and 16,777,215. -/
theorem witness_PseudoCommandsExpand :
    16777215 < 2 ^ 24 ∧ (0 : Nat) ≤ 16777215 ∧ ([0xE9] : List Byte).length ≤ 16777215 ∧ (16777215 : Nat) ≤ 16777215 ∧ 255 % 8 ≠ 0 := by decide

end Sys2Proof.Tests
end

namespace Sys2Proof.Proofs

open Sys2Proof.Machine Sys2Proof.Laws

/-! Bits of the byte view and of a rotation -/

/-- Settles O48: rotation by 0 keeps every bit; otherwise bits below `n` come from the right shift, the others from the left. -/
theorem rotateMovesBits : Obligations.RotateMovesBits := by
  intro v n z hn hz
  by_cases h0 : n = 0
  · subst h0
    simp [rotl64, Nat.mod_eq_of_lt hz]
  · simp only [rotl64, if_neg h0, BitVec.getLsbD_or, BitVec.getLsbD_shiftLeft, BitVec.getLsbD_ushiftRight, hz]
    by_cases hzn : z < n
    · have hsrc : (z + 64 - n) % 64 = 64 - n + z := by omega
      simp [hzn, hsrc]
    · have hsrc : (z + 64 - n) % 64 = z - n := by omega
      have hhigh : v.getLsbD (64 - n + z) = false := BitVec.getLsbD_of_ge _ _ (by omega)
      simp [hzn, hsrc, hhigh]

/-- Settles O46: byte 8l + z / 8 of the view is cut from lane l, at bit 8 (z / 8). -/
theorem byteViewBitOrder : Obligations.ByteViewBitOrder := by
  intro A x y z hz
  have hk : 8 * (5 * y.val + x.val) + z / 8 < 200 := by omega
  have hlane : (8 * (5 * y.val + x.val) + z / 8) / 8 = 5 * y.val + x.val := by omega
  have hbit : 8 * ((8 * (5 * y.val + x.val) + z / 8) % 8) + z % 8 = z := by omega
  refine ⟨stateToBytes_length A, ?_⟩
  rw [stateToBytes_getD A hk, byteAt_getLsbD A _ (by omega), hlane, hbit, laneAt_lane]

/-! The output of a command and the room for it -/

/-- A command that fails a check puts nothing out (R160). -/
theorem commandOutput_of_check_fails {i : Instr} {s : State} (hc : checkOf i s ≠ .success) : commandOutput i s = [] := by
  cases i with
  | squeeze n => cases h : s.configured <;> simp_all [checkOf, commandOutput]
  | digest => cases h : s.configured <;> cases hm : s.mode <;> simp_all [checkOf, commandOutput]
  | sread => exact absurd rfl hc
  | init fam level => rfl
  | absorb n => rfl
  | permute => rfl
  | sload n => rfl

/-- With room for its bytes, the common end of SQUEEZE and DIGEST leaves the engine idle and all of them on DOUT. -/
theorem emitSqueezed_fits {n : Nat} {s : State} (h : s.dout.length + n ≤ s.doutDepth) :
    emitSqueezed n s = { s with
      A := (squeezeBytes s.rateBytes n s.A s.sqOff).A
      sqOff := (squeezeBytes s.rateBytes n s.A s.sqOff).sqOff
      dout := s.dout ++ (squeezeBytes s.rateBytes n s.A s.sqOff).bytes
      activity := .idle
      err := .success } := by
  simp only [emitSqueezed]
  rw [doutPut_fits (by simpa using h)]
  rfl

/-- With room for its output, a succeeding command leaves the engine idle and its output on DOUT. -/
theorem effect_completes {i : Instr} {s : State} (p : List Byte) (hi : s.activity = .idle) (hc : checkOf i s = .success)
    (hroom : s.dout.length + (commandOutput i s).length ≤ s.doutDepth) :
    (effect i p s).activity = .idle ∧ (effect i p s).dout = s.dout ++ commandOutput i s := by
  have hf := enterSqueezing_frame s
  cases i with
  | init fam level =>
    cases hp : preset? fam level <;> simp [effect, hp, hi, commandOutput]
  | squeeze n =>
    cases hcfg : s.configured
    · simp [checkOf, hcfg] at hc
    · have hfit : (enterSqueezing s).dout.length + n ≤ (enterSqueezing s).doutDepth := by
        simpa [commandOutput, hcfg, hf] using hroom
      simp [effect, emitSqueezed_fits hfit, commandOutput, hcfg, hf]
  | digest =>
    cases hcfg : s.configured <;> cases hm : s.mode <;> simp [checkOf, hcfg, hm] at hc
    have hfit : (enterSqueezing s).dout.length + s.digestBytes.toNat ≤ (enterSqueezing s).doutDepth := by
      simpa [commandOutput, hcfg, hm, hf] using hroom
    simp [effect, emitSqueezed_fits hfit, commandOutput, hcfg, hm, hf]
  | sread =>
    have hfit : s.dout.length + (stateToBytes s.A).length ≤ s.doutDepth := hroom
    simp [effect, doutPut_fits hfit, commandOutput]
  | absorb n => simp [effect, hi, commandOutput]
  | permute => simp [effect, hi, commandOutput]
  | sload n => simp [effect, hi, commandOutput]

/-- Settles O20: the length the statement names is that of `commandOutput`, and the step is a failing command or an illegal word,
which put nothing out, or a succeeding command with room. -/
theorem acceptedWordCompletesInOneStep : Obligations.AcceptedWordCompletesInOneStep := by
  intro s w n hacc hn hroom
  have hidle : s.activity = .idle := hacc.2.1
  have hlen : ∀ i, decode w = .ok i → (commandOutput i s).length = n := by
    intro i hd
    cases i <;> simp only [hn, hd, commandOutput, stateToBytes_length, List.length_nil]
    case squeeze k => split <;> simp
    case digest => by_cases hcfg : s.configured <;> by_cases hm : s.mode = .fixed <;> simp [hcfg, hm]
  rcases accepts_cases hacc with ⟨i, hd, hc, hstep⟩ | ⟨i, hd, hc, hstep⟩ | ⟨r, hd, hstep⟩
  · have hnil := hlen i hd
    rw [commandOutput_of_check_fails hc] at hnil
    exact ⟨_, [], hstep, hidle, rfl, (List.append_nil _).symm, hnil⟩
  · have hout : commandOutput i { s with chan := none, din := s.din.drop (payloadLen w) } = commandOutput i s :=
      commandOutput_congr i rfl rfl rfl rfl rfl rfl rfl rfl
    have hck : checkOf i { s with chan := none, din := s.din.drop (payloadLen w) } = .success := by
      rw [← hc]
      cases i <;> rfl
    have hfit : s.dout.length + (commandOutput i { s with chan := none, din := s.din.drop (payloadLen w) }).length ≤
        s.doutDepth := by rwa [hout, hlen i hd]
    obtain ⟨hact, hdout⟩ := effect_completes (s := { s with chan := none, din := s.din.drop (payloadLen w) })
      (s.din.take (payloadLen w)) hidle hck hfit
    exact ⟨_, commandOutput i s, hstep, hact, (effect_frame _ hck).1, by rw [hdout, hout], hlen i hd⟩
  · exact ⟨_, [], hstep, hidle, rfl, (List.append_nil _).symm, by simp [hn, hd]⟩

/-! DOUT_DEPTH -/

/-- What a SQUEEZE or DIGEST writes depends on the depth of DOUT only in what is on DOUT and what waits. -/
theorem emitSqueezed_doutDepth (n d : Nat) (s : State) :
    ∃ o a, emitSqueezed n (enterSqueezing { s with doutDepth := d }) =
      { emitSqueezed n (enterSqueezing s) with doutDepth := d, dout := o, activity := a } := by
  have hs : enterSqueezing { s with doutDepth := d } = { enterSqueezing s with doutDepth := d } := by
    rcases enterSqueezing_cases s with ⟨hp, h⟩ | ⟨hp, h⟩
    · rw [h, enterSqueezing_absorbing (s := { s with doutDepth := d }) hp]
      rfl
    · rw [h, enterSqueezing_squeezing (s := { s with doutDepth := d }) hp]
  rw [hs]
  exact ⟨_, _, rfl⟩

/-- A succeeding command with output leaves, at another depth, the same state but for the depth, DOUT and what waits. -/
theorem effect_doutDepth {s : State} {i : Instr} {n : Nat} (p : List Byte) (d : Nat)
    (hi : i = .squeeze n ∨ i = .digest ∨ i = .sread) :
    ∃ o a, effect i p { s with doutDepth := d } = { effect i p s with doutDepth := d, dout := o, activity := a } := by
  obtain rfl | rfl | rfl := hi
  · exact emitSqueezed_doutDepth n d s
  · exact emitSqueezed_doutDepth s.digestBytes.toNat d s
  · exact ⟨_, _, rfl⟩

/-- The same of the command whether it succeeds or fails: its checks do not read the depth. -/
theorem exec_doutDepth {s : State} {i : Instr} {n : Nat} (d : Nat) (hi : i = .squeeze n ∨ i = .digest ∨ i = .sread) :
    ∃ t o a, exec i s = .next t ∧
      exec i { s with doutDepth := d } = .next { t with doutDepth := d, dout := o, activity := a } := by
  have hpay : payloadOf i = 0 := by obtain rfl | rfl | rfl := hi <;> rfl
  have htaken : ∀ u, taken i u = u := by obtain rfl | rfl | rfl := hi <;> exact fun _ => rfl
  have hcheck : checkOf i { s with doutDepth := d } = checkOf i s := by obtain rfl | rfl | rfl := hi <;> rfl
  have hdin : ∀ u : State, payloadOf i ≤ u.din.length := fun u => hpay ▸ Nat.zero_le _
  by_cases hc : checkOf i s = .success
  · obtain ⟨o, a, he⟩ := effect_doutDepth (s := s) (s.din.take (payloadOf i)) d hi
    refine ⟨_, o, a, exec_succeeds (hdin s) hc, ?_⟩
    rw [exec_succeeds (hdin _) (hcheck.trans hc), htaken, htaken, he]
  · refine ⟨_, s.dout, s.activity, exec_fails (hdin s) hc, ?_⟩
    rw [exec_fails (hdin _) (hcheck ▸ hc), hcheck, htaken, htaken]
    rfl

/-- Settles O42: at either depth the command appends `commandOutput` to the stream, which does not read the depth. -/
theorem outputIsIndependentOfDoutDepth : Obligations.OutputIsIndependentOfDoutDepth := by
  intro s d n i hidle hi
  have hu : s.activity.unplaced = [] := by rw [hidle]; rfl
  have hout : commandOutput i { s with doutDepth := d } = commandOutput i s :=
    commandOutput_congr i rfl rfl rfl rfl rfl rfl rfl rfl
  obtain ⟨t, o, a, ht, hd⟩ := exec_doutDepth d hi
  refine ⟨t, _, ht, hd, exec_outputStream hu ht, ?_, rfl⟩
  rw [← hout]
  exact exec_outputStream (s := { s with doutDepth := d }) hu hd

/-! Bit strings -/

@[simp] theorem bitsOf_append (a b : List Byte) : bitsOf (a ++ b) = bitsOf a ++ bitsOf b := List.flatMap_append

@[simp] theorem bitsOf_length (bs : List Byte) : (bitsOf bs).length = 8 * bs.length := by
  induction bs with
  | nil => rfl
  | cons b bs ih =>
    rw [← List.singleton_append, bitsOf_append, List.length_append, ih]
    simp [bitsOf]
    omega

/-- Bit k of a byte string is bit k mod 8 of its byte k div 8 (R56). -/
theorem bitsOf_eq_map (bs : List Byte) :
    bitsOf bs = (List.range (8 * bs.length)).map fun k => (bs.getD (k / 8) 0).getLsbD (k % 8) := by
  induction bs with
  | nil => rfl
  | cons b bs ih =>
    have hhead : bitsOf [b] = (List.range 8).map fun k => ((b :: bs).getD (k / 8) 0).getLsbD (k % 8) := rfl
    have hlen : 8 * (b :: bs).length = 8 + 8 * bs.length := by simp; omega
    have htail : ∀ k, ((b :: bs).getD ((8 + k) / 8) 0).getLsbD ((8 + k) % 8) = (bs.getD (k / 8) 0).getLsbD (k % 8) := by
      intro k
      rw [Nat.add_div_left k (by decide), Nat.add_mod_left]
      rfl
    rw [← List.singleton_append, bitsOf_append, ih, hhead, List.singleton_append, hlen, List.range_add, List.map_append,
      List.map_map]
    simp only [Function.comp_def, htail]

theorem bitsOf_getD (bs : List Byte) (k : Nat) : (bitsOf bs).getD k false = (bs.getD (k / 8) 0).getLsbD (k % 8) := by
  rw [bitsOf_eq_map]
  by_cases hk : k < 8 * bs.length
  · simp [List.getD, hk]
  · have hge : bs.length ≤ k / 8 := by omega
    simp [List.getD, hk, List.getElem?_eq_none hge]

/-- A byte string given byte by byte has the bit string given bit by bit. -/
theorem bitsOf_map_range {f : Nat → Byte} {g : Nat → Bool} (n : Nat) (h : ∀ k, (f (k / 8)).getLsbD (k % 8) = g k) :
    bitsOf ((List.range n).map f) = (List.range (8 * n)).map g := by
  rw [bitsOf_eq_map, List.length_map, List.length_range]
  refine List.map_congr_left fun k hk => ?_
  have hlt : k / 8 < n := by have := List.mem_range.mp hk; omega
  rw [← h k]
  simp [List.getD, hlt]

theorem bitsOf_replicate_zero (n : Nat) : bitsOf (List.replicate n 0) = List.replicate (8 * n) false := by
  have hzero : bitsOf [0] = List.replicate 8 false := rfl
  induction n with
  | zero => rfl
  | succ n ih =>
    rw [List.replicate_succ, ← List.singleton_append, bitsOf_append, ih, hzero, List.replicate_append_replicate]
    congr 1
    omega

/-! Padding: bytes and bits -/

theorem xorAt_append (a b : List Byte) (i : Nat) (v : Byte) : xorAt (a.length + i) v (a ++ b) = a ++ xorAt i v b := by
  induction a with
  | nil => simp
  | cons c a ih =>
    rw [List.length_cons, Nat.add_right_comm, List.cons_append, xorAt, List.modify_succ_cons, ← xorAt, ih, List.cons_append]

/-- The bytes finalization adds to a buffer that lacks `k + 1` bytes of a block (R122). -/
def padBytes (mode : Mode) : Nat → List Byte
  | 0 => [sfx mode ^^^ 0x80]
  | k + 1 => sfx mode :: (List.replicate k 0 ++ [0x80])

theorem padBlock_eq_append {rate k : Nat} (mode : Mode) {buf : List Byte} (h : buf.length + k + 1 = rate) :
    padBlock rate mode buf = buf ++ padBytes mode k := by
  have hgap : rate - buf.length = k + 1 := by omega
  have hlast : rate - 1 = buf.length + k := by omega
  have hfirst := xorAt_append buf (List.replicate (k + 1) 0) 0 (sfx mode)
  rw [Nat.add_zero] at hfirst
  rw [padBlock, hgap, hlast, hfirst, xorAt_append]
  congr 1
  cases k with
  | zero => simp [xorAt, padBytes]
  | succ k =>
    have hzeros := xorAt_append (List.replicate k 0) [0] 0 0x80
    rw [List.length_replicate, Nat.add_zero] at hzeros
    have hcons : xorAt 0 (sfx mode) (List.replicate (k + 1 + 1) 0) = sfx mode :: (List.replicate k 0 ++ [0]) := by
      rw [List.replicate_succ, List.replicate_succ']
      simp [xorAt]
    rw [hcons, xorAt, List.modify_succ_cons, ← xorAt, hzeros]
    rfl

/-- Pad depends on the message length only mod the rate (R120). -/
theorem padBits_add_rate (r : Nat) (suffix : List Bool) (m : Nat) : padBits r suffix (r + m) = padBits r suffix m := by
  have hmod : (-((r + m : Nat) : Int) - suffix.length - 2) % r = (-(m : Int) - suffix.length - 2) % r := by
    rw [← Int.sub_emod_right (-(m : Int) - suffix.length - 2) r]
    congr 1
    push_cast
    omega
  rw [padBits, padBits, padZeros, padZeros, hmod]

/-- The zeros of Pad for a last block that lacks `k + 1` bytes: what suffix and ones leave of them. -/
theorem padZeros_of_gap {rate k len suffixLen : Nat} (h : len + k + 1 = rate) (hs : suffixLen ≤ 6) :
    padZeros (8 * rate) suffixLen (8 * len) = 8 * k + (6 - suffixLen) := by
  have hmod : (-((8 * len : Nat) : Int) - suffixLen - 2) % ((8 * rate : Nat) : Int) =
      ((8 * k + (6 - suffixLen) : Nat) : Int) := by
    rw [← Int.add_emod_right, Int.emod_eq_of_lt] <;> push_cast <;> omega
  rw [padZeros, hmod, Int.toNat_natCast]

theorem bitsOf_padBytes {rate k len : Nat} (mode : Mode) (h : len + k + 1 = rate) :
    bitsOf (padBytes mode k) = padBits (8 * rate) (suffixBits mode) (8 * len) := by
  rw [padBits, padZeros_of_gap h (by cases mode <;> decide)]
  cases k with
  | zero => cases mode <;> rfl
  | succ k =>
    have hsfx : bitsOf [sfx mode] = suffixBits mode ++ [true] ++ List.replicate (7 - (suffixBits mode).length) false := by
      cases mode <;> rfl
    have hend : bitsOf [0x80] = List.replicate 7 false ++ [true] := rfl
    have hsuffix : (suffixBits mode).length ≤ 4 := by cases mode <;> decide
    have hcount : 8 * (k + 1) + (6 - (suffixBits mode).length) = 7 - (suffixBits mode).length + (8 * k + 7) := by
      omega
    rw [padBytes, ← List.singleton_append, bitsOf_append, bitsOf_append, hsfx, bitsOf_replicate_zero, hend, hcount,
      ← List.replicate_append_replicate, ← List.replicate_append_replicate]
    simp only [List.append_assoc]

/-- The padded last block is the buffer's bits and then Pad (R120, R122). -/
theorem bitsOf_padBlock {rate : Nat} (mode : Mode) {buf : List Byte} (h : buf.length < rate) :
    bitsOf (padBlock rate mode buf) = bitsOf buf ++ padBits (8 * rate) (suffixBits mode) (8 * buf.length) := by
  have hgap : buf.length + (rate - buf.length - 1) + 1 = rate := by omega
  rw [padBlock_eq_append mode hgap, bitsOf_append, bitsOf_padBytes mode hgap]

theorem padBlock_length {rate : Nat} (mode : Mode) (buf : List Byte) (h : buf.length < rate) :
    (padBlock rate mode buf).length = rate := by
  simp [padBlock, xorAt]
  omega

/-! Absorbing: bytes and bits -/

theorem xorBits_getLsbD (A : Lanes) (block : List Bool) (x y : Fin 5) {z : Nat} (hz : z < 64) :
    ((xorBits A block).lane x y).getLsbD z =
      ((A.lane x y).getLsbD z ^^ block.getD (64 * (5 * y.val + x.val) + z) false) := by
  simp [xorBits, hz]

/-- XORing a block onto the byte view is XORing its bits onto the state's (R56, R132). -/
theorem stateFromBytes_xorOnto (block : List Byte) (A : Lanes) :
    stateFromBytes (xorOnto (stateToBytes A) block) = xorBits A (bitsOf block) := by
  refine lanes_ext_bits fun x y z hz => ?_
  have hk : 8 * (5 * y.val + x.val) + z / 8 < 200 := by omega
  have hdiv : (64 * (5 * y.val + x.val) + z) / 8 = 8 * (5 * y.val + x.val) + z / 8 := by omega
  have hmod : (64 * (5 * y.val + x.val) + z) % 8 = z % 8 := by omega
  have hview := (byteViewBitOrder A x y z hz).2
  rw [stateFromBytes_getLsbD _ x y hz, xorOnto_getD _ _ (by simpa using hk), BitVec.getLsbD_xor, hview,
    xorBits_getLsbD A _ x y hz, bitsOf_getD, hdiv, hmod]

theorem absorbBlock_eq_bits (block : List Byte) (A : Lanes) : absorbBlock block A = keccakF (xorBits A (bitsOf block)) := by
  rw [absorbBlock, stateFromBytes_xorOnto]

@[simp] theorem chunksOf_nil {α : Type} (k fuel : Nat) : chunksOf k fuel ([] : List α) = [] := by cases fuel <;> rfl

theorem chunksOf_append {α : Type} {k : Nat} (fuel : Nat) {a : List α} (l : List α) (ha : a.length = k) (hk : 0 < k) :
    chunksOf k (fuel + 1) (a ++ l) = a :: chunksOf k fuel l := by
  cases a with
  | nil => simp at ha; omega
  | cons c a =>
    rw [List.cons_append, chunksOf, ← List.cons_append, List.take_left' ha, List.drop_left' ha]

/-- Absorbing the padded bit string block by block is the loop of ABSORB followed by the padded last block: by induction on the
blocks, whole ones first. -/
theorem foldl_chunks_eq_absorbBytes {rate : Nat} (mode : Mode) (hr : 0 < rate) (fuel : Nat) (m : List Byte) (A : Lanes)
    (hfuel : m.length < fuel) :
    (chunksOf (8 * rate) fuel (bitsOf m ++ padBits (8 * rate) (suffixBits mode) (8 * m.length))).foldl
        (fun A block => keccakF (xorBits A block)) A =
      absorbBlock (padBlock rate mode (absorbBytes rate m A []).2) (absorbBytes rate m A []).1 := by
  induction fuel generalizing m A with
  | zero => omega
  | succ fuel ih =>
    by_cases hm : m.length < rate
    · have hblock := chunksOf_append fuel [] (a := bitsOf (padBlock rate mode m)) (k := 8 * rate)
        (by rw [bitsOf_length, padBlock_length mode m hm]) (by omega)
      rw [List.append_nil, bitsOf_padBlock mode hm, chunksOf_nil] at hblock
      rw [hblock, absorbBytes_short (by simpa using hm), List.nil_append, absorbBlock_eq_bits, bitsOf_padBlock mode hm,
        List.foldl_cons, List.foldl_nil]
    · have hhead : (m.take rate).length = rate := List.length_take_of_le (by omega)
      have hlen : 8 * m.length = 8 * rate + 8 * (m.drop rate).length := by simp; omega
      have hbits : bitsOf m = bitsOf (m.take rate) ++ bitsOf (m.drop rate) := by
        rw [← bitsOf_append, List.take_append_drop]
      have hloop : absorbBytes rate m A [] = absorbBytes rate (m.drop rate) (absorbBlock (m.take rate) A) [] := by
        have hfirst := absorbBytes_block (A := A) (buf := []) hr ((Nat.zero_add _).trans hhead)
        conv_lhs => rw [← List.take_append_drop rate m, absorbBytes_append, hfirst, List.nil_append]
      rw [hbits, hlen, padBits_add_rate, List.append_assoc,
        chunksOf_append fuel _ (by rw [bitsOf_length, hhead]) (by omega), List.foldl_cons, ← absorbBlock_eq_bits, hloop]
      exact ih _ _ (by simp; omega)

/-- The state of the bit-level sponge after the message is the one ABSORB and Finalize leave (R14, R120, R124, R131). -/
theorem spongeAbsorb_eq_absorbBytes {rate : Nat} (mode : Mode) (hr : 0 < rate) (m : List Byte) :
    spongeAbsorb (8 * rate) (suffixBits mode) (bitsOf m) =
      absorbBlock (padBlock rate mode (absorbBytes rate m Lanes.zero []).2) (absorbBytes rate m Lanes.zero []).1 := by
  rw [spongeAbsorb, bitsOf_length]
  refine foldl_chunks_eq_absorbBytes mode hr _ m Lanes.zero ?_
  simp [padBits]
  omega

/-! Squeezing: bytes and bits -/

theorem byteAt_eq_stateBit (A : Lanes) (k : Nat) {i : Nat} (hi : i < 8) :
    (byteAt A k).getLsbD i = stateBit A (8 * k + i) := by
  have hdiv : (8 * k + i) / 64 = k / 8 := by omega
  have hmod : (8 * k + i) % 64 = 8 * (k % 8) + i := by omega
  rw [byteAt_getLsbD A k hi, stateBit, hdiv, hmod]

/-- Byte by byte the output stream is the sponge's output (R137). -/
theorem streamByte_eq_spongeOutBit (rate : Nat) (A : Lanes) (k : Nat) :
    (streamByte rate A (k / 8)).getLsbD (k % 8) = spongeOutBit (8 * rate) A k := by
  have hmod : k % (8 * rate) = 8 * (k / 8 % rate) + k % 8 := by rw [Nat.mod_mul, Nat.add_comm]
  rw [streamByte, byteAt_eq_stateBit _ _ (Nat.mod_lt k (by decide)), Nat.div_div_eq_div_mul, spongeOutBit, hmod]

theorem repeat_succ_inner {α : Type} (f : α → α) (k : Nat) (a : α) : Nat.repeat f (k + 1) a = Nat.repeat f k (f a) := by
  induction k with
  | zero => rfl
  | succ k ih => exact congrArg f ih

theorem streamByte_of_lt {rate : Nat} (A : Lanes) {k : Nat} (h : k < rate) : streamByte rate A k = byteAt A k := by
  rw [streamByte, Nat.div_eq_of_lt h, Nat.mod_eq_of_lt h]
  rfl

/-- Past the first block the stream is that of the permuted state. -/
theorem streamByte_rate_add {rate : Nat} (A : Lanes) (hr : 0 < rate) (k : Nat) :
    streamByte rate A (rate + k) = streamByte rate (keccakF A) k := by
  rw [streamByte, Nat.add_div_left k hr, Nat.add_mod_left, repeat_succ_inner]
  rfl

/-- SqueezeBytes puts out the next bytes of the output stream (R136, R137). -/
theorem squeezeBytes_bytes {rate : BitVec 8} (hr : 0 < rate.toNat) (n : Nat) (A : Lanes) {off : BitVec 8}
    (hoff : off.toNat ≤ rate.toNat) :
    (squeezeBytes rate n A off).bytes = (List.range n).map fun j => streamByte rate.toNat A (off.toNat + j) := by
  induction n generalizing A off with
  | zero => rfl
  | succ n ih =>
    rw [List.range_succ_eq_map, List.map_cons, List.map_map]
    have hlt := rate.isLt
    by_cases h : off = rate
    · subst h
      have hnext : (0 + 1 : BitVec 8).toNat = 1 := rfl
      simp only [squeezeBytes, if_true, ih (keccakF A) (off := 0 + 1) (by rw [hnext]; omega), hnext]
      rw [streamByte_rate_add A hr, streamByte_of_lt _ hr]
      refine congrArg (_ :: ·) (List.map_congr_left fun j _ => ?_)
      rw [← streamByte_rate_add A hr, Function.comp_apply, Nat.succ_eq_add_one, Nat.add_comm 1 j]
    · have hne : off.toNat ≠ rate.toNat := fun e => h (BitVec.eq_of_toNat_eq e)
      have hnext : (off + 1).toNat = off.toNat + 1 := by simp; omega
      simp only [squeezeBytes, if_neg h, ih A (off := off + 1) (by rw [hnext]; omega), hnext]
      rw [Nat.add_zero off.toNat, streamByte_of_lt A (show off.toNat < rate.toNat by omega)]
      refine congrArg (_ :: ·) (List.map_congr_left fun j _ => ?_)
      rw [Function.comp_apply, Nat.succ_eq_add_one, Nat.add_assoc, Nat.add_comm 1 j]

/-- From offset 0 the bits that come out are the first of the sponge's output (R14, R137). -/
theorem bitsOf_squeezeBytes {rate : BitVec 8} (hr : 0 < rate.toNat) (n : Nat) (A : Lanes) :
    bitsOf (squeezeBytes rate n A 0).bytes = (List.range (8 * n)).map (spongeOutBit (8 * rate.toNat) A) := by
  rw [squeezeBytes_bytes hr n A (Nat.zero_le _)]
  refine bitsOf_map_range n fun k => ?_
  rw [show (0 : BitVec 8).toNat = 0 from rfl, Nat.zero_add]
  exact streamByte_eq_spongeOutBit rate.toNat A k

/-! The three commands in a row -/

theorem execAll_cons {i : Instr} {is : List Instr} {s t : State} (h : exec i s = .next t) :
    execAll (i :: is) s = execAll is t := by
  rw [execAll, h]

theorem preset?_of_mem {p : Preset} (hp : p ∈ presetTable) : preset? p.family p.level = some p := by
  revert p; decide

theorem preset_rate_pos {p : Preset} (hp : p ∈ presetTable) : 0 < p.rateBytes.toNat := by
  revert p; decide

theorem preset_digestBytes {p : Preset} (hp : p ∈ presetTable) (hf : p.family = .sha3) :
    p.digestBytes.toNat = p.level / 8 := by
  revert p; decide

/-- `s` after INIT of the preset `p` and ABSORB of `m`, with `rest` still on DIN. -/
def absorbed (p : Preset) (m rest : List Byte) (s : State) : State :=
  { beginInstance p s with
    A := (absorbBytes p.rateBytes.toNat m Lanes.zero []).1
    buf := (absorbBytes p.rateBytes.toNat m Lanes.zero []).2
    din := rest
    activity := .idle }

/-- INIT of a preset and ABSORB of the bytes at the front of DIN (R131, R150). -/
theorem execAll_init_absorb {p : Preset} (hp : p ∈ presetTable) {s : State} {m rest : List Byte} (hdin : s.din = m ++ rest)
    (is : List Instr) :
    execAll (.init p.family p.level :: .absorb m.length :: is) s = execAll is (absorbed p m rest s) := by
  have hinit : exec (.init p.family p.level) s = .next (beginInstance p s) := by
    simp [exec, execInit, preset?_of_mem hp]
  have hready : payloadOf (.absorb m.length) ≤ (beginInstance p s).din.length := by simp [payloadOf, hdin]
  have habsorb := exec_succeeds hready (by simp [checkOf])
  rw [execAll_cons hinit, execAll_cons habsorb]
  simp [effect, taken, payloadOf, hdin, absorbed, beginInstance]

/-- In Absorbing, SQUEEZE or DIGEST finalizes and puts out `n` bytes (R124, R134, R138). -/
theorem exec_output_of_absorbing {s : State} {n : Nat} {last : Instr} (hcfg : s.configured = true) (hph : s.phase = .absorbing)
    (hlast : last = .squeeze n ∨ (last = .digest ∧ s.mode = .fixed ∧ n = s.digestBytes.toNat)) :
    exec last s = .next (emitSqueezed n (finalize s)) := by
  obtain rfl | ⟨rfl, hm, rfl⟩ := hlast
  · simp [exec, execSqueeze, hcfg, enterSqueezing_absorbing hph]
  · simp [exec, execDigest, hcfg, hm, enterSqueezing_absorbing hph]

/-- Settles O56: INIT leaves the zero state, ABSORB and Finalize the absorbed sponge, and the output is its output stream. -/
theorem engineComputesTheSponge : Obligations.EngineComputesTheSponge := by
  intro s p m rest n last hp hdin hroom hlast
  have hr := preset_rate_pos hp
  have hlast' : last = .squeeze n ∨ (last = .digest ∧ (absorbed p m rest s).mode = .fixed ∧
      n = (absorbed p m rest s).digestBytes.toNat) :=
    hlast.imp_right fun ⟨hd, hf, hn⟩ => ⟨hd, congrArg modeOf hf, hn.trans (preset_digestBytes hp hf).symm⟩
  have hrun := execAll_cons (is := []) (exec_output_of_absorbing rfl rfl hlast')
  rw [emitSqueezed_fits (s := finalize (absorbed p m rest s)) hroom] at hrun
  refine ⟨_, _, (execAll_init_absorb hp hdin [last]).trans hrun, rfl, rfl, rfl, rfl, ?_⟩
  rw [sponge, spongeAbsorb_eq_absorbBytes _ hr]
  exact bitsOf_squeezeBytes hr n _

end Sys2Proof.Proofs

namespace Sys2Proof.Proofs

open Sys2Proof.Machine Sys2Proof.Laws

/-! Every step keeps the invariants -/

/-- An update that writes neither the session's registers nor DOUT_DEPTH: Inv says nothing of the lanes, the channel, DIN, the host and the
counter of free values, and of ERR and STICKY, DOUT, and the command in progress only what the hypotheses do. -/
theorem inv_update {s : State} (h : Inv s) {A : Lanes} {err : ErrCode} {sticky : Bool} {activity : Activity}
    {chan : Option Word} {din dout : List Byte} {draws : Nat} {host : HostSide} (hsticky : err ≠ .success → sticky = true)
    (hdout : dout.length ≤ s.doutDepth) (hact : activity.legal) :
    Inv { s with
      A := A, err := err, sticky := sticky, activity := activity, chan := chan, din := din, dout := dout
      statusDraws := draws, host := host } :=
  { h with sticky := hsticky, dout := hdout, activity := hact }

theorem raiseError_inv {s : State} (h : Inv s) (c : ErrCode) : Inv (raiseError c s) :=
  inv_update h (fun _ => rfl) h.dout h.activity

theorem doutPut_inv {s : State} (h : Inv s) (bs : List Byte) : Inv (doutPut bs s) :=
  inv_update h h.sticky (doutPut_dout_length h.dout) (doutPut_activity_legal bs s)

theorem succeed_inv {s : State} (h : Inv s) : Inv s.succeed :=
  inv_update h (fun hne => absurd rfl hne) h.dout h.activity

/-- The engine accepts the word on the channel. -/
theorem inv_chan_none {s : State} (h : Inv s) : Inv { s with chan := none } :=
  inv_update h h.sticky h.dout h.activity

/-- The host's script loses an act. -/
theorem inv_host {s : State} (h : Inv s) (host : HostSide) : Inv { s with host := host } :=
  inv_update h h.sticky h.dout h.activity

/-- The engine takes a payload from DIN. -/
theorem inv_din_idle {s : State} (h : Inv s) (din : List Byte) : Inv { s with din := din, activity := .idle } :=
  inv_update h h.sticky h.dout trivial

theorem taken_inv {s : State} (h : Inv s) (i : Instr) : Inv (taken i s) := by
  cases i with
  | absorb n => exact inv_din_idle h _
  | sload n => exact inv_din_idle h _
  | _ => exact h

theorem inv_rate_pos {s : State} (h : Inv s) (hc : s.configured = true) : 0 < s.rateBytes.toNat := by
  obtain ⟨p, hp, -, -, hrate, -⟩ := h.preset hc
  exact hrate ▸ preset_rate_pos hp

/-- INIT writes every register its clauses of Inv speak of (R150). -/
theorem beginInstance_inv {p : Preset} (hp : p ∈ presetTable) {s : State} (h : Inv s) : Inv (beginInstance p s) :=
  { h with
    unconfigured := fun hc => nomatch hc
    preset := fun _ => ⟨p, hp, rfl, rfl, rfl, rfl⟩
    absorbing := fun _ => ⟨rfl, fun _ => preset_rate_pos hp⟩
    squeezing := fun hs => nomatch hs
    sticky := fun hne => absurd rfl hne }

theorem finalize_inv {s : State} (h : Inv s) (hc : s.configured = true) : Inv (finalize s) :=
  { h with
    unconfigured := fun hn => by simp [hc] at hn
    absorbing := fun hp => nomatch hp
    squeezing := fun _ => ⟨rfl, Nat.zero_le _⟩ }

theorem enterSqueezing_inv {s : State} (h : Inv s) (hc : s.configured = true) : Inv (enterSqueezing s) := by
  rcases enterSqueezing_cases s with ⟨_, he⟩ | ⟨_, he⟩ <;> rw [he]
  · exact finalize_inv h hc
  · exact h

/-- The loop of ABSORB writes A and BUF, and leaves less than a block in BUF (R131). -/
theorem absorbBytes_inv {s : State} (h : Inv s) (hc : s.configured = true) (hp : s.phase = .absorbing) (p : List Byte) :
    Inv { s with
      A := (absorbBytes s.rateBytes.toNat p s.A s.buf).1
      buf := (absorbBytes s.rateBytes.toNat p s.A s.buf).2 } :=
  { h with
    unconfigured := fun hn => by simp [hc] at hn
    absorbing := fun _ => ⟨(h.absorbing hp).1, fun _ => absorbBytes_buf_lt p s.A ((h.absorbing hp).2 hc)⟩
    squeezing := fun hs => by simp [hp] at hs }

/-- In Squeezing, SQUEEZE and DIGEST write A and SQ_OFF, which stays at most RATE_BYTES (R28). -/
theorem squeezeBytes_inv {s : State} (h : Inv s) (hc : s.configured = true) (hp : s.phase = .squeezing) (n : Nat) :
    Inv { s with
      A := (squeezeBytes s.rateBytes n s.A s.sqOff).A
      sqOff := (squeezeBytes s.rateBytes n s.A s.sqOff).sqOff } :=
  { h with
    unconfigured := fun hn => by simp [hc] at hn
    absorbing := fun ha => by simp [hp] at ha
    squeezing := fun _ => ⟨(h.squeezing hp).1, squeezeBytes_sqOff_le n s.A (inv_rate_pos h hc) (h.squeezing hp).2⟩ }

/-- The common end of SQUEEZE and DIGEST, after Finalize where that is due. -/
theorem emitSqueezed_inv {s : State} (h : Inv s) (hc : s.configured = true) (n : Nat) :
    Inv (emitSqueezed n (enterSqueezing s)) := by
  have hc' : (enterSqueezing s).configured = true := (enterSqueezing_frame s).1.trans hc
  exact succeed_inv (doutPut_inv (squeezeBytes_inv (enterSqueezing_inv h hc) hc' (enterSqueezing_phase s) n) _)

theorem checkOf_absorb_eq_success {n : Nat} {s : State} (hc : checkOf (.absorb n) s = .success) :
    s.configured = true ∧ s.phase = .absorbing := by
  cases h1 : s.configured <;> cases h2 : s.phase <;> simp [checkOf, h1, h2] at hc ⊢

theorem configured_of_checkOf_output {i : Instr} {s : State} (hi : (∃ n, i = .squeeze n) ∨ i = .digest)
    (hc : checkOf i s = .success) : s.configured = true := by
  obtain ⟨n, rfl⟩ | rfl := hi <;> cases h : s.configured <;> simp [checkOf, h] at hc ⊢

theorem preset?_mem {fam : Family} {level : Nat} {p : Preset} (h : preset? fam level = some p) : p ∈ presetTable :=
  List.mem_of_find?_eq_some h

theorem effect_inv {i : Instr} {s : State} (h : Inv s) (p : List Byte) (hc : checkOf i s = .success) :
    Inv (effect i p s) := by
  cases i with
  | init fam level =>
    cases hq : preset? fam level with
    | none => simpa [effect, hq] using h
    | some q => simpa [effect, hq] using beginInstance_inv (preset?_mem hq) h
  | absorb n =>
    obtain ⟨hcfg, hp⟩ := checkOf_absorb_eq_success hc
    exact succeed_inv (absorbBytes_inv h hcfg hp p)
  | squeeze n => exact emitSqueezed_inv h (configured_of_checkOf_output (.inl ⟨n, rfl⟩) hc) n
  | digest => exact emitSqueezed_inv h (configured_of_checkOf_output (.inr rfl) hc) _
  | permute => exact inv_update h (fun hne => absurd rfl hne) h.dout h.activity
  | sload n => exact inv_update h (fun hne => absurd rfl hne) h.dout h.activity
  | sread => exact succeed_inv (doutPut_inv h _)

theorem checkOf_taken (i : Instr) (s : State) : checkOf i (taken i s) = checkOf i s := by cases i <;> rfl

/-- A command that waits for payload is an ABSORB or an SLOAD. -/
theorem payload_legal {i : Instr} (hwf : i.wf = true) (hpos : 0 < payloadOf i) : (Activity.payload i).legal := by
  cases i with
  | absorb n => exact ⟨⟨n, .inl rfl⟩, hwf⟩
  | sload n => exact ⟨⟨n, .inr rfl⟩, hwf⟩
  | _ => exact absurd hpos (Nat.lt_irrefl 0)

theorem exec_inv {i : Instr} {s t : State} (h : Inv s) (hwf : i.wf = true) (he : exec i s = .next t) : Inv t := by
  rcases exec_cases i s with ⟨hlt, hr⟩ | ⟨_, _, hr⟩ | ⟨_, hc, hr⟩ <;> rw [hr] at he <;> cases he
  · exact inv_update h h.sticky h.dout (payload_legal hwf (by omega))
  · exact raiseError_inv (taken_inv h i) _
  · exact effect_inv (taken_inv h i) _ ((checkOf_taken i s).trans hc)

theorem runIllegal_inv {n : Nat} {s : State} (h : Inv s) (hn : n < 2 ^ 24) : Inv (runIllegal n s) := by
  rcases runIllegal_cases n s with ⟨_, he⟩ | ⟨_, he⟩ <;> rw [he]
  · exact inv_update h h.sticky h.dout hn
  · exact raiseError_inv (inv_din_idle h _) _

theorem ifMatches_ok {w mask pattern : Word} {i j : Instr} (h : ifMatches w mask pattern i = .ok j) : i = j := by
  unfold ifMatches at h
  split at h
  · exact Except.ok.inj h
  · cases h

theorem lenFits_lenOf (w : Word) : lenFits (lenOf w) = true := decide_eq_true (lenOf_lt w)

/-- A decoded operand is the 24-bit LEN of its word (R71). -/
theorem decode_wf {w : Word} {i : Instr} (h : decode w = .ok i) : i.wf = true := by
  unfold decode at h
  split at h
  case h_8 => cases h
  all_goals
    obtain rfl := ifMatches_ok h
    simp [Instr.wf, lenFits_lenOf]

theorem payloadLen_lt (w : Word) : payloadLen w < 2 ^ 24 := by
  unfold payloadLen
  split
  · exact lenOf_lt w
  · exact lenOf_lt w
  · decide

theorem engineStep_inv {s t : State} (h : Inv s) (he : engineStep s = .next t) : Inv t := by
  have hact := h.activity
  rcases engineStep_cases s with ⟨_, _, hr⟩ | ⟨w, i, _, _, hd, hr⟩ | ⟨w, r, _, _, _, hr⟩ | ⟨i, ha, hr⟩ | ⟨n, ha, hr⟩ |
    ⟨rest, ha, hr⟩ <;> rw [hr] at he
  · cases he
    exact h
  · exact exec_inv (inv_chan_none h) (decode_wf hd) he
  · cases he
    exact runIllegal_inv (inv_chan_none h) (payloadLen_lt w)
  · rw [ha] at hact
    obtain ⟨_, hwf⟩ := hact
    exact exec_inv h hwf he
  · rw [ha] at hact
    cases he
    exact runIllegal_inv h hact
  · cases he
    exact doutPut_inv h rest

theorem drain_inv {s : State} (h : Inv s) (n : Nat) : Inv (drain n s) := by
  refine inv_update h h.sticky ?_ h.activity
  have := h.dout
  simp only [List.length_drop]
  omega

/-- Of Inv, the reset state leaves only DOUT_DEPTH to be met, which the reset input does not write (notes/assumptions/4.md). -/
theorem resetRegisters_inv {depth draws : Nat} {chan : Option Word} {host : HostSide} (hd : 1 ≤ depth) :
    Inv { State.reset with chan := chan, doutDepth := depth, statusDraws := draws, host := host } where
  unconfigured := fun _ => ⟨rfl, rfl, rfl, rfl, rfl, rfl, rfl⟩
  preset := fun hc => nomatch hc
  absorbing := fun _ => ⟨rfl, fun hc => nomatch hc⟩
  squeezing := fun hp => nomatch hp
  sticky := fun hne => absurd rfl hne
  dout := Nat.zero_le _
  depth := hd
  activity := trivial

/-- Settles O25: CONFIGURED = 0, no command in progress, both streams empty. -/
theorem invariantHoldsAtReset : Obligations.InvariantHoldsAtReset := resetRegisters_inv (by decide)

/-- Settles O26: the host's acts write nothing Inv constrains but DOUT, which a drain shortens, or reset every register; the
engine's moves are `engineStep_inv`. -/
theorem stepKeepsInvariant : Obligations.StepKeepsInvariant := by
  intro s t h hstep
  rcases step_cases s with he | ⟨a, rest, _, he⟩
  · exact engineStep_inv h (he.symm.trans hstep)
  · have h' : Inv { s with host := { s.host with script := rest } } := inv_host h _
    rcases he with ⟨_, he⟩ | ⟨w, _, _, he⟩ | ⟨bs, _, he⟩ | ⟨n, _, he⟩ | ⟨i, _, he⟩ | ⟨_, he⟩ <;> rw [he] at hstep
    · exact engineStep_inv h' hstep
    all_goals cases hstep
    · exact inv_update h' h.sticky h.dout h.activity
    · exact inv_update h' h.sticky h.dout h.activity
    · exact drain_inv h' n
    · exact inv_update h' h.sticky h.dout h.activity
    · exact resetRegisters_inv h.depth

/-! The configuration -/

/-- The rows of R151 follow the source's formulas (R25). -/
theorem preset_formulas {p : Preset} (hp : p ∈ presetTable) :
    1600 - 8 * p.rateBytes.toNat = 2 * (BitVec.ofNat 16 p.level).toNat ∧ 8 * p.rateBytes.toNat ≤ 1600 ∧
    (modeOf p.family = .fixed → p.digestBytes.toNat = (BitVec.ofNat 16 p.level).toNat / 8) ∧
    (modeOf p.family = .extendable → p.digestBytes = 0) := by
  revert p; decide

/-- Settles O29: by Inv the configuration is a row of PRESETS. -/
theorem configurationFollowsFormulas : Obligations.ConfigurationFollowsFormulas := by
  intro s h hc
  obtain ⟨p, hp, hmode, hlevel, hrate, hdigest⟩ := h.preset hc
  obtain ⟨hcap, hle, hfixed, hext⟩ := preset_formulas hp
  rw [State.capacityBits, hmode, hlevel, hrate, hdigest]
  exact ⟨hcap, by omega, hfixed, hext⟩

/-- `t` has the configuration of `s` and is not back in Absorbing. -/
def KeepsInstance (s t : State) : Prop :=
  t.configured = s.configured ∧ t.mode = s.mode ∧ t.level = s.level ∧ t.rateBytes = s.rateBytes ∧
  t.digestBytes = s.digestBytes ∧ (s.phase = .squeezing → t.phase = .squeezing)

theorem KeepsInstance.refl (s : State) : KeepsInstance s s := ⟨rfl, rfl, rfl, rfl, rfl, id⟩

theorem KeepsInstance.trans {s t u : State} (hst : KeepsInstance s t) (htu : KeepsInstance t u) : KeepsInstance s u := by
  obtain ⟨h1, h2, h3, h4, h5, h6⟩ := hst
  obtain ⟨k1, k2, k3, k4, k5, k6⟩ := htu
  exact ⟨k1.trans h1, k2.trans h2, k3.trans h3, k4.trans h4, k5.trans h5, k6 ∘ h6⟩

theorem taken_keepsInstance (i : Instr) (s : State) : KeepsInstance s (taken i s) := by cases i <;> exact .refl s

theorem emitSqueezed_keepsInstance (n : Nat) (s : State) : KeepsInstance s (emitSqueezed n (enterSqueezing s)) := by
  simp [KeepsInstance, emitSqueezed_frame, enterSqueezing_frame]

theorem effect_keepsInstance {i : Instr} (p : List Byte) (s : State)
    (hi : ∀ fam level, i = .init fam level → preset? fam level = none) : KeepsInstance s (effect i p s) := by
  cases i with
  | init fam level => simpa [effect, hi fam level rfl] using .refl s
  | squeeze n => exact emitSqueezed_keepsInstance n s
  | digest => exact emitSqueezed_keepsInstance _ s
  | _ => exact .refl s

theorem runIllegal_keepsInstance (n : Nat) (s : State) : KeepsInstance s (runIllegal n s) := by
  rcases runIllegal_cases n s with ⟨_, he⟩ | ⟨_, he⟩ <;> rw [he] <;> exact .refl s

/-- Every command but an INIT with a preset keeps configuration and phase so (R25 to R27). -/
theorem exec_keepsInstance {i : Instr} {s t : State} (hi : ∀ fam level, i = .init fam level → preset? fam level = none)
    (h : exec i s = .next t) : KeepsInstance s t := by
  have htk := taken_keepsInstance i s
  rcases exec_cases i s with ⟨_, he⟩ | ⟨_, _, he⟩ | ⟨_, _, he⟩ <;> rw [he] at h <;> cases h
  · exact .refl s
  · exact htk
  · exact htk.trans (effect_keepsInstance _ _ hi)

/-- An engine that waits for payload has no INIT in progress, so only a word it accepts can be one that succeeds. -/
theorem engineStep_keepsInstance {s t : State} (hact : s.activity.legal)
    (hi : ∀ w fam level, s.activity = .idle → s.chan = some w → decode w = .ok (.init fam level) →
      preset? fam level = none)
    (h : engineStep s = .next t) : KeepsInstance s t := by
  rcases engineStep_cases s with ⟨_, _, he⟩ | ⟨w, i, ha, hw, hd, he⟩ | ⟨w, _, _, _, _, he⟩ | ⟨i, ha, he⟩ | ⟨n, _, he⟩ |
    ⟨rest, _, he⟩ <;> rw [he] at h
  · cases h
    exact .refl s
  · exact exec_keepsInstance (s := { s with chan := none }) (fun fam level hinit => hi w fam level ha hw (hinit ▸ hd)) h
  · cases h
    exact runIllegal_keepsInstance (payloadLen w) { s with chan := none }
  · rw [ha] at hact
    obtain ⟨⟨n, hpayload⟩, _⟩ := hact
    exact exec_keepsInstance (by rintro _ _ rfl; simp at hpayload) h
  · cases h
    exact runIllegal_keepsInstance n s
  · cases h
    exact .refl s

theorem preset?_eq_none_of_notMem {fam : Family} {level : Nat}
    (h : (fam, level) ∉
      [(Family.sha3, 224), (.sha3, 256), (.sha3, 384), (.sha3, 512), (.shake, 128), (.shake, 256)]) :
    preset? fam level = none := by
  have hall : ∀ p ∈ presetTable, (p.family, p.level) ∈
      [(Family.sha3, 224), (.sha3, 256), (.sha3, 384), (.sha3, 512), (.shake, 128), (.shake, 256)] := by decide
  rw [preset?, List.find?_eq_none]
  intro p hp hfound
  obtain ⟨rfl, rfl⟩ : p.family = fam ∧ p.level = level := by simpa using hfound
  exact h (hall p hp)

/-- Settles O27: of the host's acts only reset writes these registers, and the engine's moves are `engineStep_keepsInstance`. -/
theorem onlyInitAndResetStartAnInstance : Obligations.OnlyInitAndResetStartAnInstance := by
  intro s t hact hstep hreset hinit
  have hi : ∀ w fam level, s.activity = .idle → s.chan = some w → decode w = .ok (.init fam level) →
      preset? fam level = none := fun w fam level hidle hw hd =>
    preset?_eq_none_of_notMem fun hmem => hinit hidle w fam level hw hmem hd
  rcases step_cases s with he | ⟨a, rest, hscript, he⟩
  · exact engineStep_keepsInstance hact hi (he.symm.trans hstep)
  · rcases he with ⟨_, he⟩ | ⟨_, _, _, he⟩ | ⟨_, _, he⟩ | ⟨_, _, he⟩ | ⟨_, _, he⟩ | ⟨rfl, _⟩
    · exact engineStep_keepsInstance (s := { s with host := { s.host with script := rest } }) hact hi (he.symm.trans hstep)
    on_goal 5 => exact absurd hscript (hreset rest)
    all_goals
      rw [he] at hstep
      cases hstep
      exact KeepsInstance.refl s

/-! What the commands leave alone -/

/-- No command touches the channel, the host or the model's own fields (R35). -/
theorem exec_ports {i : Instr} {s t : State} (h : exec i s = .next t) :
    t.chan = s.chan ∧ t.host = s.host ∧ t.doutDepth = s.doutDepth ∧ t.statusDraws = s.statusDraws := by
  have htk : (taken i s).chan = s.chan ∧ (taken i s).host = s.host ∧ (taken i s).doutDepth = s.doutDepth ∧
      (taken i s).statusDraws = s.statusDraws := by cases i <;> exact ⟨rfl, rfl, rfl, rfl⟩
  rcases exec_cases i s with ⟨_, he⟩ | ⟨_, _, he⟩ | ⟨_, hc, he⟩ <;> rw [he] at h <;> cases h
  · exact ⟨rfl, rfl, rfl, rfl⟩
  · exact htk
  · simp [effect_frame _ ((checkOf_taken i s).trans hc), htk]

theorem exec_absorb_frame {n : Nat} {s t : State} (h : exec (.absorb n) s = .next t) :
    t.phase = s.phase ∧ t.sqOff = s.sqOff ∧ t.dout = s.dout := by
  rcases exec_cases (.absorb n) s with ⟨_, he⟩ | ⟨_, _, he⟩ | ⟨_, _, he⟩ <;> rw [he] at h <;> cases h <;>
    exact ⟨rfl, rfl, rfl⟩

theorem emitSqueezed_din (n : Nat) (s : State) : (emitSqueezed n (enterSqueezing s)).din = s.din := by
  simp [emitSqueezed_frame, enterSqueezing_frame]

theorem exec_squeeze_din {n : Nat} {s t : State} (h : exec (.squeeze n) s = .next t) : t.din = s.din := by
  rcases execSqueeze_cases n s with ⟨_, he⟩ | ⟨_, he⟩ <;> rw [exec, he] at h <;> cases h
  · rfl
  · exact emitSqueezed_din n s

theorem exec_digest_din {s t : State} (h : exec .digest s = .next t) : t.din = s.din := by
  rcases execDigest_cases s with ⟨_, he⟩ | ⟨_, _, he⟩ | ⟨_, _, he⟩ <;> rw [exec, he] at h <;> cases h
  · rfl
  · rfl
  · exact emitSqueezed_din _ s

theorem exec_init_frame {fam : Family} {level : Nat} {s t : State} (h : exec (.init fam level) s = .next t) :
    t.din = s.din ∧ t.dout = s.dout ∧ t.activity = s.activity := by
  rcases execInit_cases fam level s with ⟨p, _, he⟩ | ⟨_, he⟩ <;> rw [exec, he] at h <;> cases h <;>
    exact ⟨rfl, rfl, rfl⟩

/-- Settles O55, one command after another. -/
theorem spongeCommandsFrame : Obligations.SpongeCommandsFrame := by
  intro s t i h
  obtain ⟨hchan, hhost, hdepth, hdraws⟩ := exec_ports h
  refine ⟨hchan, hhost, hdepth, hdraws, fun hi => ?_, ?_, ?_, ?_⟩
  · obtain ⟨hcfg, hmode, hlevel, hrate, hdigest, _⟩ := exec_keepsInstance (fun fam level he => absurd he (hi fam level)) h
    exact ⟨hcfg, hmode, hlevel, hrate, hdigest⟩
  · rintro ⟨n, rfl⟩
    exact exec_absorb_frame h
  · rintro (⟨n, rfl⟩ | rfl)
    · exact exec_squeeze_din h
    · exact exec_digest_din h
  · rintro ⟨fam, level, rfl⟩
    exact exec_init_frame h

/-- PERMUTE, SLOAD and SREAD leave the session alone (R198). -/
theorem exec_raw_session {i : Instr} {s t : State} (hi : i = .permute ∨ i = .sread ∨ ∃ n, i = .sload n)
    (h : exec i s = .next t) : t.buf = s.buf ∧ t.phase = s.phase ∧ t.sqOff = s.sqOff := by
  obtain rfl | rfl | ⟨n, rfl⟩ := hi
  · cases h
    exact ⟨rfl, rfl, rfl⟩
  · cases h
    exact ⟨rfl, rfl, rfl⟩
  · rcases exec_cases (.sload n) s with ⟨_, he⟩ | ⟨_, _, he⟩ | ⟨_, _, he⟩ <;> rw [he] at h <;> cases h <;>
      exact ⟨rfl, rfl, rfl⟩

theorem exec_permute_frame {s t : State} (h : exec .permute s = .next t) :
    t.din = s.din ∧ t.dout = s.dout ∧ t.sticky = s.sticky ∧ t.activity = s.activity := by
  cases h
  exact ⟨rfl, rfl, rfl, rfl⟩

theorem exec_sread_frame {s t : State} (h : exec .sread s = .next t) :
    t.A = s.A ∧ t.din = s.din ∧ t.sticky = s.sticky := by
  cases h
  exact ⟨rfl, rfl, rfl⟩

theorem exec_sload_dout {n : Nat} {s t : State} (h : exec (.sload n) s = .next t) : t.dout = s.dout := by
  rcases exec_cases (.sload n) s with ⟨_, he⟩ | ⟨_, _, he⟩ | ⟨_, _, he⟩ <;> rw [he] at h <;> cases h <;> rfl

/-- Settles O54: the configuration and the ports by O55, the rest one command after another. -/
theorem rawCommandsLeaveTheSession : Obligations.RawCommandsLeaveTheSession := by
  intro s t i hi h
  obtain ⟨hchan, hhost, hdepth, hdraws, hconfig, -⟩ := spongeCommandsFrame s t i h
  obtain ⟨hcfg, hmode, hlevel, hrate, hdigest⟩ := hconfig (by rintro _ _ rfl; simp at hi)
  obtain ⟨hbuf, hphase, hoff⟩ := exec_raw_session hi h
  refine ⟨hbuf, hphase, hoff, hcfg, hmode, hlevel, hrate, hdigest, hchan, hhost, hdepth, hdraws, ?_, ?_, ?_⟩
  · rintro rfl
    exact exec_permute_frame h
  · rintro rfl
    exact exec_sread_frame h
  · rintro ⟨n, rfl⟩
    exact exec_sload_dout h

/-! STICKY -/

/-- Settles O19: a failure sets STICKY with ERR; a success leaves ERR 0, and STICKY as `effect_frame` says. -/
theorem stickySetByFailureClearedByInit : Obligations.StickySetByFailureClearedByInit := by
  intro s t w hacc hstep
  rcases accepts_cases hacc with ⟨i, hd, hc, he⟩ | ⟨i, hd, hc, he⟩ | ⟨r, hd, he⟩ <;> rw [he] at hstep <;> cases hstep
  · exact (if_pos hc).symm
  · have hck : checkOf i { s with chan := none, din := s.din.drop (payloadLen w) } = .success := by cases i <;> exact hc
    rw [hd]
    cases i <;> simp [effect_frame _ hck]
  · exact (if_pos (by simp)).symm

/-! The status words -/

theorem fieldAt_getLsbD {n : Nat} (v : BitVec n) (lo : Nat) {a : Nat} (ha : a < 32) :
    (fieldAt v lo).getLsbD a = (decide (lo ≤ a) && v.getLsbD (a - lo)) := by
  by_cases h : a < lo
  · simp [fieldAt, ha, h, Nat.not_le.mpr h]
  · simp [fieldAt, ha, h, Nat.not_lt.mp h]

/-- `fieldAt_getLsbD` in simp's spelling of a bit. -/
theorem fieldAt_getElem {n : Nat} (v : BitVec n) (lo a : Nat) (ha : a < 32) :
    (fieldAt v lo)[a] = (decide (lo ≤ a) && v.getLsbD (a - lo)) := fieldAt_getLsbD v lo ha

theorem fieldAt_extract_self {n : Nat} (v : BitVec n) (lo : Nat) (h : lo + n ≤ 32) :
    (fieldAt v lo).extractLsb' lo n = v := by
  apply BitVec.eq_of_getLsbD_eq
  intro i hi
  rw [BitVec.getLsbD_extractLsb', fieldAt_getLsbD v lo (by omega)]
  simp [hi]

/-- Off its own bits a field is 0, so fields of disjoint bits do not disturb each other. -/
theorem fieldAt_extract_other {n : Nat} (v : BitVec n) (lo a k : Nat) (h : lo + n ≤ a ∨ a + k ≤ lo) :
    (fieldAt v lo).extractLsb' a k = 0 := by
  apply BitVec.eq_of_getLsbD_eq
  intro i hi
  obtain habove | hbelow := h
  · have hv : v.getLsbD (a + i - lo) = false := BitVec.getLsbD_of_ge _ _ (by omega)
    simp [fieldAt, hv]
  · simp [fieldAt, show a + i < lo by omega]

theorem statusWord_err (s : State) : s.statusWord.extractLsb' 0 4 = s.err.bits := by
  simp [State.statusWord, BitVec.extractLsb'_or, fieldAt_extract_self, fieldAt_extract_other]

theorem statusWord_reserved (s : State) : s.statusWord.extractLsb' 9 23 = 0 := by
  simp [State.statusWord, BitVec.extractLsb'_or, fieldAt_extract_other]

/-- The one-bit fields of SR[0] (R37). -/
theorem statusWord_flags (s : State) :
    s.statusWord.getLsbD 4 = s.sticky ∧ s.statusWord.getLsbD 5 = s.configured ∧
    s.statusWord.getLsbD 6 = s.phase.bit ∧ s.statusWord.getLsbD 7 = s.mode.bit ∧ s.statusWord.getLsbD 8 = s.busy := by
  simp [State.statusWord, fieldAt_getElem, BitVec.getLsbD_of_ge]

/-- The fields of SR[1] (R38). -/
theorem configWord_fields (s : State) :
    s.configWord.extractLsb' 0 16 = s.level ∧ s.configWord.extractLsb' 16 8 = s.rateBytes ∧
    s.configWord.extractLsb' 24 8 = s.digestBytes := by
  simp [State.configWord, BitVec.extractLsb'_or, fieldAt_extract_self, fieldAt_extract_other]

/-- The fields of SR[2] (R39). -/
theorem positionWord_fields (s : State) :
    s.positionWord.extractLsb' 0 8 = s.bufLen ∧ s.positionWord.extractLsb' 8 8 = s.sqOff ∧
    s.positionWord.extractLsb' 16 16 = 0 := by
  simp [State.positionWord, BitVec.extractLsb'_or, fieldAt_extract_self, fieldAt_extract_other]

/-- While BUSY = 0 the host reads the registers (R36). -/
theorem srWord_of_not_busy {s : State} (h : s.busy = false) :
    s.srWord 0 = s.statusWord ∧ s.srWord 1 = s.configWord ∧ s.srWord 2 = s.positionWord := by
  simp [State.srWord, h]

/-- While BUSY = 1 the host reads a free value under the masks of R40 and R196. -/
theorem srWord_of_busy {s : State} (h : s.busy = true) :
    s.srWord 0 = (Config.freeStatus s.statusDraws &&& 0x000000FF) ||| 0x00000100 ∧
    s.srWord 2 = Config.freeStatus s.statusDraws &&& 0x0000FFFF := by
  simp [State.srWord, h]

/-- Settles O6: each field is its own bits of a status word, and the other fields are 0 there. -/
theorem statusFieldsShowRegisters : Obligations.StatusFieldsShowRegisters := by
  intro s hbusy
  obtain ⟨h0, h1, h2⟩ := srWord_of_not_busy hbusy
  obtain ⟨hsticky, hconfigured, hphase, hmode, hbusyBit⟩ := statusWord_flags s
  obtain ⟨hlevel, hrate, hdigest⟩ := configWord_fields s
  obtain ⟨hbufLen, hsqOff, hreserved⟩ := positionWord_fields s
  have hphaseBit : s.phase.bit = decide (s.phase = .squeezing) := by cases s.phase <;> rfl
  have hmodeBit : s.mode.bit = decide (s.mode = .extendable) := by cases s.mode <;> rfl
  rw [h0, h1, h2]
  refine ⟨?_, hsticky, hconfigured, hphase.trans hphaseBit, hmode.trans hmodeBit, hbusyBit.trans hbusy,
    statusWord_reserved s, hlevel, hrate, hdigest, ?_, hsqOff, hreserved⟩
  · rw [statusWord_err]
    cases s.err <;> rfl
  · rw [hbufLen]
    exact BitVec.toNat_ofNat ..

/-- Settles O7: with BUSY = 1 the masks clear the reserved bits, with BUSY = 0 no field stands there. -/
theorem reservedStatusBitsReadZero : Obligations.ReservedStatusBitsReadZero := by
  intro s
  refine ⟨by simp [State.srWord], ?_⟩
  cases hbusy : s.busy
  · obtain ⟨h0, -, h2⟩ := srWord_of_not_busy hbusy
    obtain ⟨-, -, hreserved⟩ := positionWord_fields s
    rw [h0, h2]
    exact ⟨statusWord_reserved s, hreserved⟩
  · obtain ⟨h0, h2⟩ := srWord_of_busy hbusy
    rw [h0, h2]
    simp [BitVec.extractLsb'_or, BitVec.extractLsb'_and]

/-- Settles O8: bit 8 is BUSY, read as 1 whatever the free value is. -/
theorem busyBitShowsCommandInProgress : Obligations.BusyBitShowsCommandInProgress := by
  intro s
  have hbit : (s.srWord 0).getLsbD 8 = s.busy := by
    cases hbusy : s.busy
    · obtain ⟨h0, -, -⟩ := srWord_of_not_busy hbusy
      obtain ⟨-, -, -, -, hbusyBit⟩ := statusWord_flags s
      rw [h0, hbusyBit, hbusy]
    · obtain ⟨h0, -⟩ := srWord_of_busy hbusy
      rw [h0]
      simp
  rw [hbit, Bool.eq_iff_iff, decide_eq_true_iff]
  exact busy_iff s

/-! Reset and the host's acts -/

/-- Settles O1, value by value. -/
theorem resetStateHoldsResetValues : Obligations.ResetStateHoldsResetValues :=
  ⟨Lanes.lane_zero, rfl, rfl, rfl, rfl, rfl, rfl, rfl, rfl, rfl, rfl, rfl, rfl, rfl, rfl⟩

/-- A turn of a host whose script is not at its end. -/
theorem step_scripted {s : State} {a : HostAct} {rest : List HostAct} (h : s.host.script = a :: rest) :
    step s = hostTurn a rest s := by
  simp [step, h]

/-- Settles O58: the turn is `assertReset`, which takes these fields over from its state. -/
theorem resetInputLeavesTheHostSide : Obligations.ResetInputLeavesTheHostSide := by
  intro s rest h
  exact ⟨_, step_scripted h, rfl, rfl, rfl, rfl⟩

/-- Settles O5: the counter of free values goes up under BUSY = 1 only. -/
theorem statusReadHasNoSideEffect : Obligations.StatusReadHasNoSideEffect := by
  intro s i rest h
  refine ⟨if s.busy then s.statusDraws + 1 else s.statusDraws, step_scripted h, fun hbusy => ?_⟩
  simp [hbusy]

end Sys2Proof.Proofs

namespace Sys2Proof.Proofs

open Sys2Proof.Machine Sys2Proof.Laws

/-! The block on the byte view -/

/-- Byte k of the lanes that AbsorbBlock permutes (R132). -/
theorem byteAt_xorOnto (block : List Byte) (A : Lanes) {k : Nat} (hk : k < 200) :
    byteAt (stateFromBytes (xorOnto (stateToBytes A) block)) k = byteAt A k ^^^ block.getD k 0 := by
  rw [byteAt_stateFromBytes _ hk, xorOnto_getD _ _ (by simpa using hk), stateToBytes_getD A hk]

/-- Settles O34: past the end of the block `getD` reads 0, and XOR with 0 changes nothing. -/
theorem blockIsXoredBitForBit : Obligations.BlockIsXoredBitForBit := by
  intro block A _
  refine ⟨stateFromBytes (xorOnto (stateToBytes A) block), rfl, fun k hk i _ => ?_, fun k hk hend => ?_⟩
  · rw [byteAt_xorOnto block A hk, BitVec.getLsbD_xor]
  · have hzero : block.getD k 0 = 0 := by simp [List.getD, List.getElem?_eq_none hend]
    rw [byteAt_xorOnto block A hk, hzero]
    exact BitVec.xor_zero

/-! Turns of the engine and acts of the host -/

/-- Settles O3: the two turns are `send` and `drain`. -/
theorem streamTransfersKeepOrder : Obligations.StreamTransfersKeepOrder := by
  intro s rest
  refine ⟨fun bs h => step_scripted h, fun n h => ⟨s.dout.take n, ?_, List.length_take, step_scripted h⟩⟩
  exact List.take_append_drop n s.dout

/-- Of the state, the engine's turn begins with everything but the host's script. -/
theorem engineTurn_host {s s' : State} (h : s.engineTurn s') :
    ∃ host, s' = { s with host := host } ∧ host.gotBytes = s.host.gotBytes ∧
      step s = engineStep { s with host := host } := by
  obtain ⟨hstep, hs', hgot, -⟩ := engineTurn_step h
  exact ⟨s'.host, hs', hgot, hs' ▸ hstep⟩

/-- Whose turn a step is, and what the host's acts but a reset do. -/
theorem step_turns (s : State) :
    (∃ s', s.engineTurn s') ∨ (∃ rest, s.host.script = .reset :: rest) ∨
    ∃ rest, let s' := { s with host := { s.host with script := rest } }
      (∃ w, s.chan = none ∧ step s = .next { s' with chan := some w }) ∨
      (∃ bs, step s = .next (send bs s')) ∨
      (∃ n, step s = .next (drain n s')) ∨
      (∃ i, step s = .next (readStatus i s')) := by
  cases h : s.host.script with
  | nil => exact .inl ⟨s, .inl ⟨h, rfl⟩⟩
  | cons a rest =>
    have hstep := step_scripted h
    cases a with
    | present w =>
      cases hc : s.chan with
      | none => exact .inr (.inr ⟨rest, .inl ⟨w, rfl, by simp [hstep, hostTurn, present, hc]⟩⟩)
      | some v => exact .inl ⟨s, .inr (.inr ⟨w, rest, h, by simp [hc], rfl⟩)⟩
    | send bs => exact .inr (.inr ⟨rest, .inr (.inl ⟨bs, hstep⟩)⟩)
    | drain n => exact .inr (.inr ⟨rest, .inr (.inr (.inl ⟨n, hstep⟩))⟩)
    | readStatus i => exact .inr (.inr ⟨rest, .inr (.inr (.inr ⟨i, hstep⟩))⟩)
    | reset => exact .inr (.inl ⟨rest, rfl⟩)
    | idle => exact .inl ⟨_, .inr (.inl ⟨rest, h, rfl⟩)⟩

/-! One equation of the engine's move for each activity -/

theorem engineStep_of_no_word {s : State} (ha : s.activity = .idle) (hc : s.chan = none) : engineStep s = .next s := by
  simp [engineStep, ha, hc]

theorem engineStep_of_word {s : State} {w : Word} (ha : s.activity = .idle) (hc : s.chan = some w) :
    engineStep s = runWord w { s with chan := none } := by
  simp [engineStep, ha, hc]

theorem engineStep_of_payload {s : State} {i : Instr} (ha : s.activity = .payload i) : engineStep s = exec i s := by
  simp [engineStep, ha]

theorem engineStep_of_discard {s : State} {n : Nat} (ha : s.activity = .discard n) :
    engineStep s = .next (runIllegal n s) := by
  simp [engineStep, ha]

theorem engineStep_of_output {s : State} {rest : List Byte} (ha : s.activity = .output rest) :
    engineStep s = .next (doutPut rest s) := by
  simp [engineStep, ha]

theorem runWord_of_ok {w : Word} {i : Instr} {s : State} (hd : decode w = .ok i) : runWord w s = exec i s := by
  simp [runWord, hd]

theorem runWord_of_error {w : Word} {r : Illegal} {s : State} (hd : decode w = .error r) :
    runWord w s = .next (runIllegal (payloadLen w) s) := by
  simp [runWord, hd]

theorem runIllegal_next (n : Nat) (s : State) :
    (.next (runIllegal n s) : Host.Outcome State Fault Refusal) =
      if n ≤ s.din.length then
        .next { s with din := s.din.drop n, err := .illegalCommand, sticky := true, activity := .idle }
      else .next { s with activity := .discard n } := by
  rcases runIllegal_cases n s with ⟨hlt, he⟩ | ⟨hle, he⟩
  · rw [he, if_neg (by omega)]
  · rw [he, if_pos hle]
    rfl

/-- `doutPut` cuts its bytes into those placed now and those that wait. -/
theorem doutPut_split (bs : List Byte) (s : State) :
    ∃ now later, now ++ later = bs ∧ now.length = min bs.length (s.doutDepth - s.dout.length) ∧
      doutPut bs s = { s with dout := s.dout ++ now, activity := if later = [] then .idle else .output later } := by
  refine ⟨bs.take s.doutRoom, bs.drop s.doutRoom, List.take_append_drop _ _, ?_, ?_⟩
  · rw [List.length_take, Nat.min_comm]
    rfl
  · simp only [doutPut, List.drop_eq_nil_iff]

/-- Settles O14: on the engine's turn the step is `engineStep`, one clause for each of its branches. -/
theorem stepRunsDecodedCommand : Obligations.StepRunsDecodedCommand := by
  intro s s' hturn
  obtain ⟨host, rfl, -, hstep⟩ := engineTurn_host hturn
  rw [hstep]
  refine ⟨fun w i ha hc hd => ?_, fun w r ha hc hd => ?_, fun i ha => ?_, fun n ha => ?_, fun rest ha => ?_,
    fun ha hc => ?_⟩
  · rw [engineStep_of_word (s := { s with host := host }) ha hc, runWord_of_ok hd]
  · rw [engineStep_of_word (s := { s with host := host }) ha hc, runWord_of_error hd, runIllegal_next, ← ha]
  · exact engineStep_of_payload (s := { s with host := host }) ha
  · rw [engineStep_of_discard (s := { s with host := host }) ha, runIllegal_next, ← ha]
  · obtain ⟨now, later, hcat, hlen, hput⟩ := doutPut_split rest { s with host := host }
    exact ⟨now, later, hcat, hlen, by rw [engineStep_of_output (s := { s with host := host }) ha, hput]⟩
  · exact engineStep_of_no_word (s := { s with host := host }) ha hc

/-! The command channel -/

theorem runIllegal_chan (n : Nat) (s : State) : (runIllegal n s).chan = s.chan := by
  rcases runIllegal_cases n s with ⟨_, he⟩ | ⟨_, he⟩
  · rw [he]
  · rw [he, raiseError_chan]

theorem exec_chan (i : Instr) (s : State) : ∃ t, exec i s = .next t ∧ t.chan = s.chan := by
  obtain ⟨t, ht⟩ := exec_next i s
  exact ⟨t, ht, (exec_ports ht).1⟩

theorem runWord_chan (w : Word) (s : State) : ∃ t, runWord w s = .next t ∧ t.chan = s.chan := by
  rcases runWord_cases w s with ⟨i, _, he⟩ | ⟨r, _, he⟩ <;> rw [he]
  · exact exec_chan i s
  · exact ⟨_, rfl, runIllegal_chan _ s⟩

/-- With a command in progress the engine leaves the channel alone (R193). -/
theorem engineStep_chan_of_busy {s : State} (hb : s.busy = true) : ∃ t, engineStep s = .next t ∧ t.chan = s.chan := by
  cases ha : s.activity with
  | idle => exact absurd ha ((busy_iff s).mp hb)
  | payload i => exact engineStep_of_payload ha ▸ exec_chan i s
  | discard n => exact ⟨_, engineStep_of_discard ha, runIllegal_chan n s⟩
  | output rest => exact ⟨_, engineStep_of_output ha, rfl⟩

/-- Settles O4: under BUSY = 1 neither the engine nor an act of the host but a `present` on the free channel writes it. -/
theorem channelHoldsOneWord : Obligations.ChannelHoldsOneWord := by
  intro s
  refine ⟨fun w rest hscript hfree => ?_, fun v hv hbusy hreset => ?_, fun v hv hidle hsilent => ?_⟩
  · simp [step_scripted hscript, hostTurn, present, hfree]
  · rcases step_turns s with ⟨s', hturn⟩ | ⟨rest, hr⟩ | ⟨rest, ⟨w, hfree, _⟩ | ⟨bs, he⟩ | ⟨n, he⟩ | ⟨i, he⟩⟩
    · obtain ⟨host, -, -, hstep⟩ := engineTurn_host hturn
      obtain ⟨t, ht, hchan⟩ := engineStep_chan_of_busy (s := { s with host := host }) hbusy
      exact ⟨t, hstep.trans ht, hchan.trans hv⟩
    · exact absurd hr (hreset rest)
    · simp [hfree] at hv
    all_goals exact ⟨_, he, hv⟩
  · rw [step_silent hsilent, engineStep_of_word hidle hv]
    exact runWord_chan v { s with chan := none }

/-! The output stream -/

/-- A command's output depends neither on the channel nor on the host. -/
theorem commandOutput_ports (i : Instr) (s : State) (chan : Option Word) (host : HostSide) :
    commandOutput i { s with chan := chan, host := host } = commandOutput i s :=
  commandOutput_congr i rfl rfl rfl rfl rfl rfl rfl rfl

theorem outputStream_chan (s : State) (chan : Option Word) : { s with chan := chan }.outputStream = s.outputStream := rfl

/-- The output of the command the engine's move accepts or goes on with, computed in that move. -/
def movedOutput (s : State) : List Byte :=
  match s.activity with
  | .idle =>
    match s.chan with
    | none => []
    | some w =>
      match decode w with
      | .ok i => commandOutput i s
      | .error _ => []
  | .payload i => commandOutput i s
  | .discard _ => []
  | .output _ => []

theorem movedOutput_host (s : State) (host : HostSide) : movedOutput { s with host := host } = movedOutput s := by
  simp only [movedOutput, commandOutput_ports]

theorem movedOutput_of_accepts {s : State} {w : Word} {i : Instr} (ha : s.activity = .idle) (hc : s.chan = some w)
    (hd : decode w = .ok i) : movedOutput s = commandOutput i s := by
  simp [movedOutput, ha, hc, hd]

/-- The output is that of the accepted command alone: one that waits for payload is an ABSORB or an SLOAD. -/
theorem movedOutput_of_not_accepts {s : State} (hl : s.activity.legal)
    (hn : ∀ w i, s.activity = .idle → s.chan = some w → decode w ≠ .ok i) : movedOutput s = [] := by
  cases ha : s.activity with
  | idle =>
    cases hc : s.chan with
    | none => simp [movedOutput, ha, hc]
    | some w =>
      cases hd : decode w with
      | ok i => exact absurd hd (hn w i ha hc)
      | error r => simp [movedOutput, ha, hc, hd]
  | payload i =>
    rw [ha] at hl
    obtain ⟨⟨n, rfl | rfl⟩, _⟩ := hl <;> simp [movedOutput, ha, commandOutput]
  | discard n => simp [movedOutput, ha]
  | output rest => simp [movedOutput, ha]

theorem runIllegal_outputStream (n : Nat) {s : State} (hu : s.activity.unplaced = []) :
    (runIllegal n s).outputStream = s.outputStream := by
  rw [outputStream_of_unplaced hu]
  rcases runIllegal_cases n s with ⟨_, he⟩ | ⟨_, he⟩
  · exact he ▸ outputStream_of_unplaced rfl
  · exact he ▸ outputStream_of_unplaced rfl

/-- What the engine's move does to the output stream (R53, R61, R78). -/
theorem engineStep_outputStream {s t : State} (h : engineStep s = .next t) :
    t.outputStream = s.outputStream ++ movedOutput s := by
  rcases engineStep_cases s with ⟨ha, hc, he⟩ | ⟨w, i, ha, hc, hd, he⟩ | ⟨w, r, ha, hc, hd, he⟩ | ⟨i, ha, he⟩ |
    ⟨n, ha, he⟩ | ⟨rest, ha, he⟩ <;> rw [he] at h
  · cases h
    simp [movedOutput, ha, hc]
  · rw [movedOutput_of_accepts ha hc hd, ← outputStream_chan s none, ← commandOutput_ports i s none s.host]
    exact exec_outputStream (by rw [ha]; rfl) h
  · cases h
    have hnone : movedOutput s = [] := by simp [movedOutput, ha, hc, hd]
    rw [hnone, List.append_nil, ← outputStream_chan s none]
    exact runIllegal_outputStream _ (by rw [ha]; rfl)
  · simpa [movedOutput, ha] using exec_outputStream (by rw [ha]; rfl) h
  · cases h
    simpa [movedOutput, ha] using runIllegal_outputStream n (s := s) (by rw [ha]; rfl)
  · cases h
    rw [doutPut_outputStream]
    simp [movedOutput, State.outputStream, ha, Activity.unplaced]

/-- The same of a step on the engine's turn, which the host's script does not enter. -/
theorem engineTurn_outputStream {s s' t : State} (hturn : s.engineTurn s') (h : step s = .next t) :
    t.outputStream = s.outputStream ++ movedOutput s := by
  obtain ⟨host, -, hgot, hstep⟩ := engineTurn_host hturn
  have hout := engineStep_outputStream (hstep.symm.trans h)
  have hs : ({ s with host := host } : State).outputStream = s.outputStream := by simp [State.outputStream, hgot]
  rw [hout, hs, movedOutput_host]

/-- No act of the host but a reset changes the stream: a drain only moves its oldest bytes on DOUT to the host (R63). -/
theorem hostAct_outputStream {s t : State} (h : step s = .next t) (hturn : ∀ s', ¬ s.engineTurn s')
    (hreset : ∀ rest, s.host.script ≠ .reset :: rest) : t.outputStream = s.outputStream := by
  rcases step_turns s with ⟨s', hs'⟩ | ⟨rest, hr⟩ | ⟨rest, ⟨w, _, he⟩ | ⟨bs, he⟩ | ⟨n, he⟩ | ⟨i, he⟩⟩
  · exact absurd hs' (hturn s')
  · exact absurd hr (hreset rest)
  all_goals
    rw [he] at h
    cases h
  · rfl
  · rfl
  · simp [State.outputStream]
  · rfl

/-- Settles O23: the engine's turn appends `movedOutput`, any other turn nothing. -/
theorem outputStreamOnlyGrows : Obligations.OutputStreamOnlyGrows := by
  intro s t hstep hreset
  by_cases hturn : ∃ s', s.engineTurn s'
  · obtain ⟨s', hs'⟩ := hturn
    have hout := engineTurn_outputStream hs' hstep
    refine ⟨⟨movedOutput s, hout.symm⟩, fun _ w i _ ha hc hd => ?_, fun hl hn => ?_⟩
    · rw [hout, movedOutput_of_accepts ha hc hd]
    · rw [hout, movedOutput_of_not_accepts hl fun w i => hn s' w i hs', List.append_nil]
  · have hturn' := not_exists.mp hturn
    have hout := hostAct_outputStream hstep hturn' hreset
    exact ⟨⟨[], by rw [hout, List.append_nil]⟩, fun s' _ _ hs' => absurd hs' (hturn' s'), fun _ _ => hout⟩

end Sys2Proof.Proofs

namespace Sys2Proof.Proofs

open Sys2Proof.Machine Sys2Proof.Laws

/-! Every word is its LEN field and its low byte -/

/-- The word of R81 to R84 as the rules write it, LEN × 256 plus the low byte. -/
theorem lenWord_eq_ofNat {n : Nat} (c : BitVec 8) (h : n < 2 ^ 24) : lenWord n c = BitVec.ofNat 32 (n * 256 + c.toNat) := by
  apply BitVec.eq_of_toNat_eq
  have hc := c.isLt
  rw [lenWord_toNat n c h, BitVec.toNat_ofNat, Nat.mod_eq_of_lt (by omega)]

/-- No bit of a word lies outside the two fields. -/
theorem lenWord_lenOf_low {w : Word} {c : BitVec 8} (h : w.toNat % 256 = c.toNat) : lenWord (lenOf w) c = w := by
  apply BitVec.eq_of_toNat_eq
  rw [lenWord_toNat _ c (lenOf_lt w), lenOf_eq_shift, BitVec.toNat_ushiftRight, Nat.shiftRight_eq_div_pow]
  omega

theorem lenWord_low {n : Nat} (c : BitVec 8) (h : n < 2 ^ 24) : (lenWord n c).toNat % 256 = c.toNat := by
  rw [lenWord_toNat n c h]
  omega

/-- FAM is bit 4 of the word's number (R70). -/
theorem famOf_eq (w : Word) : famOf w = if w.toNat % 256 / 16 % 2 = 1 then .shake else .sha3 := by
  have hbit : w.getLsbD 4 = decide (w.toNat % 256 / 16 % 2 = 1) := by
    rw [BitVec.getLsbD, Nat.testBit_eq_decide_div_mod_eq]
    congr 1
    simp only [eq_iff_iff]
    omega
  simp only [famOf, hbit, decide_eq_true_eq]

/-! The rows of R75 whose command has an operand; the words of the others are single -/

/-- A row accepts the words of its mask and match only. -/
theorem ifMatches_ok_iff {w mask pattern : Word} {i j : Instr} :
    ifMatches w mask pattern i = .ok j ↔ w &&& mask = pattern ∧ i = j := by
  by_cases h : w &&& mask = pattern <;> simp [ifMatches, h]

theorem decode_init_row {w : Word} (h : w &&& 0xEF = 1) : decode w = .ok (.init (famOf w) (lenOf w)) := by
  have hop : (opOf w).toNat = 1 := by
    have hlow := (and_initMask_iff w).mp h
    rw [opOf_toNat]
    omega
  rw [decode, hop]
  exact ifMatches_ok_iff.mpr ⟨h, rfl⟩

/-- The opcode of a word whose low byte is fixed. -/
theorem opOf_of_low8 {w : Word} {c : Nat} (hc : c < 256) (h : w &&& 0xFF = BitVec.ofNat 32 c) :
    (opOf w).toNat = c % 16 := by
  have hlow := (and_low8_eq_iff w c hc).mp h
  rw [opOf_toNat]
  omega

theorem decode_absorb_row {w : Word} (h : w &&& 0xFF = 2) : decode w = .ok (.absorb (lenOf w)) := by
  have hop : (opOf w).toNat = 2 := opOf_of_low8 (by decide) h
  rw [decode, hop]
  exact ifMatches_ok_iff.mpr ⟨h, rfl⟩

theorem decode_squeeze_row {w : Word} (h : w &&& 0xFF = 3) : decode w = .ok (.squeeze (lenOf w)) := by
  have hop : (opOf w).toNat = 3 := opOf_of_low8 (by decide) h
  rw [decode, hop]
  exact ifMatches_ok_iff.mpr ⟨h, rfl⟩

theorem decode_sload_row {w : Word} (h : w &&& 0xFF = 6) : decode w = .ok (.sload (lenOf w)) := by
  have hop : (opOf w).toNat = 6 := opOf_of_low8 (by decide) h
  rw [decode, hop]
  exact ifMatches_ok_iff.mpr ⟨h, rfl⟩

/-- A mask of all bits leaves a row one word. -/
theorem ifMatches_fullMask_ok_iff {w pattern : Word} {i j : Instr} :
    ifMatches w 0xFFFFFFFF pattern i = .ok j ↔ w = pattern ∧ i = j := by
  have hmask : w &&& 0xFFFFFFFF = w := BitVec.and_allOnes
  rw [ifMatches_ok_iff, hmask]

/-- Everything a legal word can be: the mask and match of R75 it meets, and the command it decodes to. -/
theorem decode_ok_cases {w : Word} {i : Instr} (h : decode w = .ok i) :
    (w &&& 0xEF = 1 ∧ .init (famOf w) (lenOf w) = i) ∨ (w &&& 0xFF = 2 ∧ .absorb (lenOf w) = i) ∨
    (w &&& 0xFF = 3 ∧ .squeeze (lenOf w) = i) ∨ (w = 4 ∧ .digest = i) ∨ (w = 5 ∧ .permute = i) ∨
    (w &&& 0xFF = 6 ∧ .sload (lenOf w) = i) ∨ (w = 7 ∧ .sread = i) := by
  unfold decode at h
  split at h
  case h_1 => exact .inl (ifMatches_ok_iff.mp h)
  case h_2 => exact .inr (.inl (ifMatches_ok_iff.mp h))
  case h_3 => exact .inr (.inr (.inl (ifMatches_ok_iff.mp h)))
  case h_4 => exact .inr (.inr (.inr (.inl (ifMatches_fullMask_ok_iff.mp h))))
  case h_5 => exact .inr (.inr (.inr (.inr (.inl (ifMatches_fullMask_ok_iff.mp h)))))
  case h_6 => exact .inr (.inr (.inr (.inr (.inr (.inl (ifMatches_ok_iff.mp h))))))
  case h_7 => exact .inr (.inr (.inr (.inr (.inr (.inr (ifMatches_fullMask_ok_iff.mp h))))))
  case h_8 => cases h

/-! The round trip -/

/-- The low byte of a built word, as the rows of R75 read it. -/
theorem lenWord_and_low8 {n : Nat} (c : BitVec 8) (h : n < 2 ^ 24) :
    lenWord n c &&& 0xFF = BitVec.ofNat 32 c.toNat :=
  (and_low8_eq_iff _ _ c.isLt).mpr (lenWord_low c h)

theorem decode_encode_init (fam : Family) {level : Nat} (h : level < 2 ^ 24) :
    decode (encode (.init fam level)) = .ok (.init fam level) := by
  cases fam with
  | sha3 =>
    have hlow := lenWord_low 0x01 h
    rw [encode, decode_init_row ((and_initMask_iff _).mpr (.inl hlow)), famOf_eq, hlow, lenOf_lenWord _ _ h]
    rfl
  | shake =>
    have hlow := lenWord_low 0x11 h
    rw [encode, decode_init_row ((and_initMask_iff _).mpr (.inr hlow)), famOf_eq, hlow, lenOf_lenWord _ _ h]
    rfl

/-- Settles O11: the word of a command meets its row of R75, and its fields are the command's operands. -/
theorem encodedCommandDecodesToItself : Obligations.EncodedCommandDecodesToItself := by
  intro i hwf
  cases i with
  | init fam level => exact decode_encode_init fam (of_decide_eq_true hwf)
  | absorb n =>
    have hn : n < 2 ^ 24 := of_decide_eq_true hwf
    rw [encode, decode_absorb_row (lenWord_and_low8 0x02 hn), lenOf_lenWord _ _ hn]
  | squeeze n =>
    have hn : n < 2 ^ 24 := of_decide_eq_true hwf
    rw [encode, decode_squeeze_row (lenWord_and_low8 0x03 hn), lenOf_lenWord _ _ hn]
  | digest => rfl
  | permute => rfl
  | sload n =>
    have hn : n < 2 ^ 24 := of_decide_eq_true hwf
    rw [encode, decode_sload_row (lenWord_and_low8 0x06 hn), lenOf_lenWord _ _ hn]
  | sread => rfl

/-- INIT's low byte holds FAM, the only bit of it R75 leaves free. -/
theorem encode_init_row {w : Word} (h : w &&& 0xEF = 1) : encode (.init (famOf w) (lenOf w)) = w := by
  rcases (and_initMask_iff w).mp h with hlow | hlow <;> rw [famOf_eq, hlow]
  · exact lenWord_lenOf_low (c := 0x01) hlow
  · exact lenWord_lenOf_low (c := 0x11) hlow

/-- The word of a row whose low byte is fixed. -/
theorem lenWord_lenOf_of_low8 {w : Word} (c : BitVec 8) (h : w &&& 0xFF = BitVec.ofNat 32 c.toNat) :
    lenWord (lenOf w) c = w :=
  lenWord_lenOf_low ((and_low8_eq_iff w _ c.isLt).mp h)

/-- Settles O12: the row a legal word meets fixes its low byte, and the command keeps the rest. -/
theorem legalWordIsEncodingOfItsCommand : Obligations.LegalWordIsEncodingOfItsCommand := by
  intro w i h
  refine ⟨decode_wf h, ?_⟩
  rcases decode_ok_cases h with ⟨hrow, rfl⟩ | ⟨hrow, rfl⟩ | ⟨hrow, rfl⟩ | ⟨rfl, rfl⟩ | ⟨rfl, rfl⟩ | ⟨hrow, rfl⟩ | ⟨rfl, rfl⟩
  · exact encode_init_row hrow
  · exact lenWord_lenOf_of_low8 0x02 hrow
  · exact lenWord_lenOf_of_low8 0x03 hrow
  · rfl
  · rfl
  · exact lenWord_lenOf_of_low8 0x06 hrow
  · rfl

/-- Settles O10: the rows one by one; a word that decodes meets one of them. -/
theorem wordsDecodeByMaskAndMatch : Obligations.WordsDecodeByMaskAndMatch := by
  intro w
  rw [← lenOf_eq_shift]
  refine ⟨decode_init_row, decode_absorb_row, decode_squeeze_row, ?_, ?_, decode_sload_row, ?_, ?_⟩
  · rintro rfl
    rfl
  · rintro rfl
    rfl
  · rintro rfl
    rfl
  · intro hinit habsorb hsqueeze hdigest hpermute hsload hsread
    cases h : decode w with
    | error r => exact ⟨r, rfl⟩
    | ok i =>
      rcases decode_ok_cases h with ⟨hrow, _⟩ | ⟨hrow, _⟩ | ⟨hrow, _⟩ | ⟨hrow, _⟩ | ⟨hrow, _⟩ | ⟨hrow, _⟩ | ⟨hrow, _⟩
      · exact absurd hrow hinit
      · exact absurd hrow habsorb
      · exact absurd hrow hsqueeze
      · exact absurd hrow hdigest
      · exact absurd hrow hpermute
      · exact absurd hrow hsload
      · exact absurd hrow hsread

/-- Settles O9: the words are fixed. -/
theorem vectorWordsDecodeAsListed : Obligations.VectorWordsDecodeAsListed := by
  unfold Obligations.VectorWordsDecodeAsListed
  decide

/-! Accepted words and their payload -/

theorem and_low4_eq_iff (w : Word) (c : Nat) (hc : c < 16) : w &&& 0xF = BitVec.ofNat 32 c ↔ (opOf w).toNat = c := by
  rw [← BitVec.toNat_inj, and_low4_toNat, opOf_toNat, BitVec.toNat_ofNat, Nat.mod_eq_of_lt (show c < 2 ^ 32 by omega)]

/-- PayloadLen read off OP and LEN (R73). -/
theorem payloadLen_eq (w : Word) : payloadLen w = if w &&& 0xF = 2 ∨ w &&& 0xF = 6 then (w >>> 8).toNat else 0 := by
  have habsorb : w &&& 0xF = 2 ↔ (opOf w).toNat = 2 := and_low4_eq_iff w 2 (by decide)
  have hsload : w &&& 0xF = 6 ↔ (opOf w).toNat = 6 := and_low4_eq_iff w 6 (by decide)
  simp only [habsorb, hsload, ← lenOf_eq_shift]
  unfold payloadLen
  split
  next h => rw [h, if_pos (.inl rfl)]
  next h => rw [h, if_pos (.inr rfl)]
  next h2 h6 => exact (if_neg (not_or.mpr ⟨h2, h6⟩)).symm

/-- Settles O16: in each way an accepted word ends, its payload has left DIN. -/
theorem everyAcceptedWordTakesItsPayload : Obligations.EveryAcceptedWordTakesItsPayload := by
  refine ⟨payloadLen_eq, fun s w hacc => ?_⟩
  rcases accepts_cases hacc with ⟨i, _, _, he⟩ | ⟨i, _, hc, he⟩ | ⟨r, _, he⟩
  · exact ⟨_, he, rfl, rfl⟩
  · have hck : checkOf i { s with chan := none, din := s.din.drop (payloadLen w) } = .success := by cases i <;> exact hc
    obtain ⟨hchan, hdin, -⟩ := effect_frame (s.din.take (payloadLen w)) hck
    exact ⟨_, he, hdin, hchan⟩
  · exact ⟨_, he, rfl, rfl⟩

/-- Settles O15: of the ways an accepted word ends only that of an illegal word is left. -/
theorem illegalWordCompletesWithIllegalCommand : Obligations.IllegalWordCompletesWithIllegalCommand := by
  intro s w r hacc hr
  rcases accepts_cases hacc with ⟨i, hd, _⟩ | ⟨i, hd, _⟩ | ⟨_, _, he⟩
  · simp [hr] at hd
  · simp [hr] at hd
  · exact he

/-! The assembler -/

/-- The transfers of a command that some word expresses: the word, then the payload if there is one (R80). -/
def transfers (i : Instr) (payload : List Byte) : List HostAct :=
  .present (encode i) :: if payload = [] then [] else [.send payload]

@[simp] theorem transfers_nil (i : Instr) : transfers i [] = [.present (encode i)] := rfl

theorem transfers_of_ne_nil (i : Instr) {p : List Byte} (h : p ≠ []) :
    transfers i p = [.present (encode i), .send p] := by
  simp [transfers, h]

theorem emitCommand_of_wf {i : Instr} (p : List Byte) (h : i.wf = true) : emitCommand i p = some (transfers i p) := by
  cases p <;> simp [emitCommand, transfers, h]

theorem emitCommand_of_not_wf {i : Instr} (p : List Byte) (h : i.wf = false) : emitCommand i p = none := by
  simp [emitCommand, h]

theorem emitCounted_some (i : Nat → Instr) (n : Nat) (p : List Byte) :
    emitCounted i (some n) p = if n = p.length then emitCommand (i n) p else none := by
  by_cases h : n = p.length <;> simp [emitCounted, h]

theorem emitCounted_none (i : Nat → Instr) (p : List Byte) : emitCounted i none p = emitCommand (i p.length) p := by
  simp [emitCounted]

/-- A list no count can express is rejected with every count (R71). -/
theorem emitCounted_of_not_wf (i : Nat → Instr) (n : Option Nat) {p : List Byte} (h : (i p.length).wf = false) :
    emitCounted i n p = none := by
  simp [emitCounted, emitCommand_of_not_wf p h]

theorem lenFits_of_lt {n : Nat} (h : n < 2 ^ 24) : lenFits n = true := decide_eq_true h

theorem lenFits_of_le {n : Nat} (h : 2 ^ 24 ≤ n) : lenFits n = false := decide_eq_false (Nat.not_lt.mpr h)

/-- A line with a count, its word given as the rule's formula (R82, R84). -/
theorem emitCounted_eq_formula (i : Nat → Instr) {c : BitVec 8} {p : List Byte} (n : Nat) (hp : p.length < 2 ^ 24)
    (hwf : (i p.length).wf = true) (henc : encode (i p.length) = lenWord p.length c) :
    emitCounted i (some n) p =
      if n = p.length then
        some (.present (BitVec.ofNat 32 (n * 256 + c.toNat)) :: if p = [] then [] else [.send p])
      else none := by
  rw [emitCounted_some]
  split
  next hn => rw [hn, emitCommand_of_wf p hwf, transfers, henc, lenWord_eq_ofNat c hp]
  next => rfl

/-- A line whose command has a LEN operand and no payload, its word given as the rule's formula (R81, R83). -/
theorem emitCommand_eq_formula (i : Instr) {c : BitVec 8} {n : Nat} (hn : n < 2 ^ 24) (hwf : i.wf = true)
    (henc : encode i = lenWord n c) : emitCommand i [] = some [.present (BitVec.ofNat 32 (n * 256 + c.toNat))] := by
  rw [emitCommand_of_wf [] hwf, transfers_nil, henc, lenWord_eq_ofNat c hn]

/-- Settles O13, one kind of line after another. -/
theorem assemblerLinesEncode : Obligations.AssemblerLinesEncode := by
  refine ⟨fun n hn => ?_, fun n hn => ?_, ⟨rfl, rfl, rfl⟩, fun n bs hbs => ?_, fun bs => ⟨?_, ?_, fun hbs n => ?_⟩, ?_,
    fun n => ?_, fun v => rfl, fun bs => rfl⟩
  · have hfits := lenFits_of_lt hn
    exact ⟨emitCommand_eq_formula (.init .sha3 n) hn hfits rfl, emitCommand_eq_formula (.init .shake n) hn hfits rfl,
      emitCommand_eq_formula (.squeeze n) hn hfits rfl⟩
  · have hfits := lenFits_of_le hn
    exact ⟨emitCommand_of_not_wf [] hfits, emitCommand_of_not_wf [] hfits, emitCommand_of_not_wf [] hfits⟩
  · have hfits := lenFits_of_lt hbs
    exact ⟨emitCounted_eq_formula .absorb n hbs hfits rfl, emitCounted_eq_formula .sload n hbs hfits rfl⟩
  · rw [assemble, assemble, emitCounted_none, emitCounted_some, if_pos rfl]
  · rw [assemble, assemble, emitCounted_none, emitCounted_some, if_pos rfl]
  · have hfits := lenFits_of_le hbs
    exact ⟨emitCounted_of_not_wf .absorb n hfits, emitCounted_of_not_wf .sload n hfits⟩
  · rfl
  · rw [assemble, assemble, emitCounted_some, if_pos List.length_replicate.symm]

/-! The pseudo-commands -/

/-- Commands that words express make their transfers one after another. -/
theorem emitAll_of_wf {cs : List (Instr × List Byte)} (h : ∀ c ∈ cs, c.1.wf = true) :
    emitAll cs = some (cs.flatMap fun c => transfers c.1 c.2) := by
  induction cs with
  | nil => rfl
  | cons c cs ih =>
    obtain ⟨hc, hcs⟩ := List.forall_mem_cons.mp h
    rw [emitAll, emitCommand_of_wf c.2 hc, ih hcs, List.flatMap_cons]

theorem chunksOf_cons {α : Type} (k fuel : Nat) (a : α) (l : List α) :
    chunksOf k (fuel + 1) (a :: l) = (a :: l).take k :: chunksOf k fuel ((a :: l).drop k) := rfl

/-- The pieces join to the list, and none is empty or longer than `k`. -/
theorem chunksOf_spec {α : Type} {k : Nat} (hk : 0 < k) (fuel : Nat) (l : List α) (hfuel : l.length ≤ fuel) :
    (chunksOf k fuel l).flatten = l ∧ ∀ p ∈ chunksOf k fuel l, 0 < p.length ∧ p.length ≤ k := by
  induction fuel generalizing l with
  | zero =>
    obtain rfl := List.eq_nil_of_length_eq_zero (Nat.le_zero.mp hfuel)
    simp
  | succ fuel ih =>
    cases l with
    | nil => simp
    | cons a l =>
      obtain ⟨hjoin, hpieces⟩ := ih ((a :: l).drop k) (by simp at hfuel ⊢; omega)
      rw [chunksOf_cons, List.flatten_cons, hjoin, List.take_append_drop, List.forall_mem_cons]
      refine ⟨rfl, ?_, hpieces⟩
      simp
      omega

/-- A list that one piece can hold is one piece. -/
theorem chunksOf_of_length_le {α : Type} {k fuel : Nat} {a : α} {l : List α} (h : (a :: l).length ≤ k) :
    chunksOf k (fuel + 1) (a :: l) = [a :: l] := by
  rw [chunksOf_cons, List.take_of_length_le h, List.drop_of_length_le h, chunksOf_nil]

theorem squeezeCounts_of_le {n : Nat} (fuel : Nat) (h : n ≤ lenMax) : squeezeCounts fuel n = [n] := by
  cases fuel <;> simp [squeezeCounts, h]

/-- The counts add up to `n`, there is one, and none is more than LEN holds. -/
theorem squeezeCounts_spec (fuel n : Nat) (h : n ≤ (fuel + 1) * lenMax) :
    (squeezeCounts fuel n).sum = n ∧ squeezeCounts fuel n ≠ [] ∧ ∀ k ∈ squeezeCounts fuel n, k ≤ lenMax := by
  induction fuel generalizing n with
  | zero => simpa [squeezeCounts] using h
  | succ fuel ih =>
    by_cases hn : n ≤ lenMax
    · simp [squeezeCounts_of_le _ hn, hn]
    · rw [Nat.add_one_mul] at h
      obtain ⟨hsum, -, hle⟩ := ih (n - lenMax) (by omega)
      rw [squeezeCounts, if_neg hn, List.sum_cons, hsum, List.forall_mem_cons]
      exact ⟨by omega, List.cons_ne_nil _ _, le_rfl, hle⟩

/-- The pieces of a message (R86). -/
def pieces (msg : List Byte) : List (List Byte) := chunksOf lenMax msg.length msg

theorem pieces_spec (msg : List Byte) :
    (pieces msg).flatten = msg ∧ ∀ p ∈ pieces msg, 0 < p.length ∧ p.length ≤ lenMax :=
  chunksOf_spec (by decide) msg.length msg le_rfl

theorem pieces_of_length_le {b : Byte} {bs : List Byte} (h : (b :: bs).length ≤ lenMax) :
    pieces (b :: bs) = [b :: bs] := chunksOf_of_length_le h

/-- The transfers that absorb a message: a word and a payload for each piece. -/
def absorbTransfers (msg : List Byte) : List HostAct :=
  (pieces msg).flatMap fun p => [.present (encode (.absorb p.length)), .send p]

theorem lenFits_of_le_lenMax {n : Nat} (h : n ≤ lenMax) : lenFits n = true := lenFits_of_lt (Nat.lt_succ_of_le h)

theorem absorbPieces_wf {msg : List Byte} {c : Instr × List Byte} (hc : c ∈ absorbPieces msg) : c.1.wf = true := by
  obtain ⟨p, hp, rfl⟩ := List.mem_map.mp hc
  exact lenFits_of_le_lenMax ((pieces_spec msg).2 p hp).2

theorem absorbPieces_transfers (msg : List Byte) :
    (absorbPieces msg).flatMap (fun c => transfers c.1 c.2) = absorbTransfers msg := by
  rw [absorbPieces, List.flatMap_map]
  refine List.flatMap_congr fun p hp => transfers_of_ne_nil _ ?_
  exact List.ne_nil_of_length_pos ((pieces_spec msg).2 p hp).1

/-- INIT, the message and commands without payload: the shape of both pseudo-commands (R86). -/
theorem emitAll_session {fam : Family} {level : Nat} (hlevel : level < 2 ^ 24) (msg : List Byte) {outs : List Instr}
    (houts : ∀ i ∈ outs, i.wf = true) :
    emitAll ((.init fam level, []) :: absorbPieces msg ++ outs.map fun i => (i, [])) = some
      (.present (encode (.init fam level)) :: absorbTransfers msg ++ outs.map fun i => .present (encode i)) := by
  have hwf : ∀ c ∈ (Instr.init fam level, []) :: absorbPieces msg ++ outs.map fun i => (i, []), c.1.wf = true := by
    intro c hc
    rcases List.mem_append.mp hc with hc | hc
    · rcases List.mem_cons.mp hc with rfl | hc
      · exact lenFits_of_lt hlevel
      · exact absorbPieces_wf hc
    · obtain ⟨i, hi, rfl⟩ := List.mem_map.mp hc
      exact houts i hi
  rw [emitAll_of_wf hwf, List.flatMap_append, List.flatMap_cons, absorbPieces_transfers, List.flatMap_map, List.map_eq_flatMap]
  rfl

theorem assemble_sha3 {level : Nat} (hlevel : level < 2 ^ 24) (msg : List Byte) :
    assemble (.sha3 level msg) = some
      (.present (encode (.init .sha3 level)) :: absorbTransfers msg ++ [.present (encode .digest)]) :=
  emitAll_session hlevel msg (outs := [.digest]) (by simp [Instr.wf])

/-- The SQUEEZE counts of an output of `n` bytes (R86). -/
def outputCounts (n : Nat) : List Nat := squeezeCounts (n / lenMax) n

theorem outputCounts_spec (n : Nat) :
    (outputCounts n).sum = n ∧ outputCounts n ≠ [] ∧ ∀ k ∈ outputCounts n, k ≤ lenMax :=
  squeezeCounts_spec _ n (Nat.mul_comm _ _ ▸ (Nat.lt_mul_div_succ n (by decide)).le)

theorem assemble_shake {level : Nat} (hlevel : level < 2 ^ 24) (msg : List Byte) (n : Nat) :
    assemble (.shake level msg (8 * n)) = some
      (.present (encode (.init .shake level)) :: absorbTransfers msg ++
        (outputCounts n).map fun k => .present (encode (.squeeze k))) := by
  have hwf : ∀ i ∈ (outputCounts n).map Instr.squeeze, i.wf = true := by
    intro i hi
    obtain ⟨k, hk, rfl⟩ := List.mem_map.mp hi
    exact lenFits_of_le_lenMax ((outputCounts_spec n).2.2 k hk)
  have hsession := emitAll_session (fam := .shake) hlevel msg hwf
  rw [List.map_map, List.map_map] at hsession
  rw [assemble, if_pos (Nat.mul_mod_right 8 n), Nat.mul_div_cancel_left n (by decide)]
  exact hsession

/-- Settles O57: both expansions are INIT, the pieces and the output commands; what one command carries is one piece. -/
theorem pseudoCommandsExpand : Obligations.PseudoCommandsExpand := by
  refine ⟨fun level b bs hlevel hlen => ⟨?_, fun n hn => ?_⟩, fun level hlevel => ⟨?_, fun n hn => ?_⟩,
    fun level n msg hlevel => ?_, fun level bits msg hbits => if_neg hbits⟩
  · rw [assemble_sha3 hlevel, absorbTransfers, pieces_of_length_le hlen]
    rfl
  · rw [assemble_shake hlevel, absorbTransfers, pieces_of_length_le hlen, outputCounts, squeezeCounts_of_le _ hn]
    rfl
  · exact assemble_sha3 hlevel []
  · rw [assemble_shake hlevel, outputCounts, squeezeCounts_of_le _ hn]
    rfl
  · obtain ⟨hjoin, hpieces⟩ := pieces_spec msg
    obtain ⟨hsum, hne, hcounts⟩ := outputCounts_spec n
    exact ⟨pieces msg, outputCounts n, hjoin, hpieces, hsum, hne, hcounts, assemble_sha3 hlevel msg,
      assemble_shake hlevel msg n⟩

end Sys2Proof.Proofs

namespace Sys2Proof.Proofs

open Sys2Proof.Machine Sys2Proof.Laws

/-! The serializer's two functions and the commands that use them -/

/-- Bit by bit, the byte that `stateFromBytes` reads a lane's bit from is the one the view put it in (R55). -/
theorem stateFromBytes_stateToBytes (A : Lanes) : stateFromBytes (stateToBytes A) = A := by
  refine lanes_ext_bits fun x y z hz => ?_
  rw [stateFromBytes_getLsbD _ x y hz]
  exact (byteViewBitOrder A x y z hz).2

theorem stateToBytes_stateFromBytes {s : List Byte} (h : s.length = 200) : stateToBytes (stateFromBytes s) = s := by
  refine List.ext_getElem ((stateToBytes_length _).trans h.symm) fun k hk hks => ?_
  rw [← List.getD_eq_getElem _ 0 hk, ← List.getD_eq_getElem _ 0 hks, stateToBytes_getD _ (h ▸ hks),
    byteAt_stateFromBytes s (h ▸ hks)]

/-- Settles O47: the lanes are compared bit by bit, the strings byte by byte. -/
theorem serializerRoundTrip : Obligations.SerializerRoundTrip :=
  ⟨stateFromBytes_stateToBytes, fun _ h => stateToBytes_stateFromBytes h⟩

/-- Settles O44: with the payload there the count alone decides; the lanes are `stateFromBytes` of the payload, whose byte view
the round trip gives back. -/
theorem sloadLoadsByteView : Obligations.SloadLoadsByteView := by
  intro s n hn
  refine ⟨?_, fun hne => ?_⟩
  · rintro rfl
    exact ⟨stateFromBytes (s.din.take 200), stateToBytes_stateFromBytes (List.length_take_of_le hn),
      exec_succeeds (i := .sload 200) hn rfl⟩
  · have hc : checkOf (.sload n) s = .invalidLength := if_neg hne
    rw [exec_fails (i := .sload n) hn (by simp [hc]), hc]
    rfl

/-- Settles O45: the 200 bytes of the view fit on DOUT at once. -/
theorem sreadEmitsByteView : Obligations.SreadEmitsByteView := by
  intro s hroom
  have hfit : s.dout.length + (stateToBytes s.A).length ≤ s.doutDepth := by rwa [stateToBytes_length]
  have hexec : exec .sread s = .next (doutPut (stateToBytes s.A) s).succeed := exec_succeeds (Nat.zero_le _) rfl
  rw [hexec, doutPut_fits hfit]
  rfl

end Sys2Proof.Proofs

namespace Sys2Proof.Proofs

open Sys2Proof.Machine Sys2Proof.Laws

/-! The step mappings, lane by lane -/

@[simp] theorem theta_lane (A : Lanes) (x y : Fin 5) : (theta A).lane x y = A.lane x y ^^^ thetaD A x := Lanes.lane_of _ x y

@[simp] theorem rho_lane (A : Lanes) (x y : Fin 5) : (rho A).lane x y = rotl64 (A.lane x y) (rhoOffset x y) :=
  Lanes.lane_of _ x y

@[simp] theorem piStep_lane (A : Lanes) (x y : Fin 5) : (piStep A).lane x y = A.lane (x + 3 * y) x := Lanes.lane_of _ x y

@[simp] theorem chi_lane (A : Lanes) (x y : Fin 5) :
    (chi A).lane x y = A.lane x y ^^^ (~~~(A.lane (x + 1) y) &&& A.lane (x + 2) y) := Lanes.lane_of _ x y

@[simp] theorem iota_lane (A : Lanes) (rc : Lane) (x y : Fin 5) :
    (iota A rc).lane x y = A.lane x y ^^^ (if x = 0 ∧ y = 0 then rc else 0) := by
  by_cases h : x = 0 ∧ y = 0 <;> simp [iota, h]

@[simp] theorem setLane_lane (A : Lanes) (x y x' y' : Fin 5) (v : Lane) :
    (setLane A x y v).lane x' y' = if x' = x ∧ y' = y then v else A.lane x' y' := Lanes.lane_of _ x' y'

/-- Settles O52: each step's lane formula, read at the lane the next step takes. -/
theorem roundLaneByLane : Obligations.RoundLaneByLane := by
  intro A rc x y
  simp only [rnd, iota_lane, chi_lane, piStep_lane, rho_lane, rhoOffset]

/-! PERMUTE and the round constants -/

/-- Settles O43: PERMUTE has no payload and no check, so it ends with its effect. -/
theorem permuteAppliesKeccakF : Obligations.PermuteAppliesKeccakF :=
  fun _ => exec_succeeds (i := .permute) (Nat.zero_le _) rfl

/-- Settles O50: the table and the generator are fixed. -/
theorem roundConstantsFromGenerator : Obligations.RoundConstantsFromGenerator := by
  unfold Obligations.RoundConstantsFromGenerator
  decide

/-! Rho: the walk against the table -/

/-- The offset by which the walk of R103 rotates lane (x', y'), where its path comes there; the last visit counts. -/
def walkOffset : Nat → Nat → Fin 5 → Fin 5 → Fin 5 → Fin 5 → Option Nat
  | 0, _, _, _, _, _ => none
  | k + 1, t, x, y, x', y' =>
    (walkOffset k (t + 1) y (2 * x + 3 * y) x' y').or
      (if x' = x ∧ y' = y then some ((t + 1) * (t + 2) / 2 % 64) else none)

/-- A lane after the walk: rotated from the input if the path comes there, as it was written before otherwise. -/
theorem rhoWalkFrom_lane (A out : Lanes) (k t : Nat) (x y x' y' : Fin 5) :
    (rhoWalkFrom k t x y A out).lane x' y' =
      (walkOffset k t x y x' y').elim (out.lane x' y') (rotl64 (A.lane x' y')) := by
  induction k generalizing t x y out with
  | zero => rfl
  | succ k ih =>
    rw [rhoWalkFrom, ih, walkOffset, setLane_lane]
    cases walkOffset k (t + 1) y (2 * x + 3 * y) x' y' with
    | some n => rfl
    | none =>
      by_cases h : x' = x ∧ y' = y
      · obtain ⟨rfl, rfl⟩ := h
        simp
      · simp [h]

/-- R104 by enumeration: the path comes to every lane but (0,0), with the offset of the table. -/
theorem walkOffset_eq_table :
    ∀ x y : Fin 5, walkOffset 24 0 1 0 x y = if x = 0 ∧ y = 0 then none else some (rhoOffset x y) := by decide

/-- Settles O49: lane (0,0), where the path never comes, has offset 0 in the table. -/
theorem rhoWalkIsTableRotation : Obligations.RhoWalkIsTableRotation := by
  refine fun A => Lanes.ext_lane fun x y => ?_
  rw [rhoWalk, rhoWalkFrom_lane, walkOffset_eq_table, rho_lane]
  by_cases h : x = 0 ∧ y = 0
  · obtain ⟨rfl, rfl⟩ := h
    rfl
  · rw [if_neg h, Option.elim_some]

/-! Theta: column parities -/

theorem thetaD_getLsbD (A : Lanes) (x : Fin 5) {z : Nat} (hz : z < 64) :
    (thetaD A x).getLsbD z = ((thetaC A (x + 4)).getLsbD z ^^ (thetaC A (x + 1)).getLsbD ((z + 63) % 64)) := by
  rw [thetaD, BitVec.getLsbD_xor, rotateMovesBits _ 1 z (by decide) hz]
  rfl

theorem thetaC_getLsbD (A : Lanes) (x : Fin 5) (z : Nat) :
    (thetaC A x).getLsbD z = (List.finRange 5).foldl (fun b y => b ^^ (A.lane x y).getLsbD z) false := by
  simp [thetaC, List.finRange_succ]

/-- Settles O51: C is the parity of a column, D that of two columns, one of them rotated by 1. -/
theorem thetaAddsTwoColumnParities : Obligations.ThetaAddsTwoColumnParities := by
  intro A x y z hz
  rw [theta_lane, BitVec.getLsbD_xor, thetaD_getLsbD A x hz, thetaC_getLsbD, thetaC_getLsbD]

/-! Theta is injective: so is its action on the column parities -/

/-- XOR a 5 × 64 array of bits with itself moved by (i, 0) and by (-i, r). -/
def mix (i : Fin 5) (r : Fin 64) (c : Fin 5 → Fin 64 → Bool) : Fin 5 → Fin 64 → Bool :=
  fun x z => c x z ^^ (c (x - i) z ^^ c (x + i) (z - r))

/-- Done twice, it is the same with the distances doubled: the mixed terms come in pairs and cancel. -/
theorem mix_mix (i : Fin 5) (r : Fin 64) (c : Fin 5 → Fin 64 → Bool) : mix i r (mix i r c) = mix (i + i) (r + r) c := by
  funext x z
  simp only [mix, sub_add_cancel, add_sub_cancel_right, sub_sub, add_assoc]
  simp [Bool.xor_left_comm]

theorem mix_injective_of_double {i : Fin 5} {r : Fin 64} (h : Function.Injective (mix (i + i) (r + r))) :
    Function.Injective (mix i r) := by
  have hsquare : mix i r ∘ mix i r = mix (i + i) (r + r) := funext (mix_mix i r)
  exact .of_comp (hsquare ▸ h)

/-- Without a move along z it has an inverse: modulo 5 the other terms come in pairs and cancel. -/
theorem mix_three_mix_four (c : Fin 5 → Fin 64 → Bool) : mix 3 0 (mix 4 0 c) = c := by
  have hmod : ∀ x : Fin 5, x - 3 - 4 = x + 3 ∧ x - 3 + 4 = x - 4 ∧ x + 3 - 4 = x + 4 ∧ x + 3 + 4 = x - 3 := by decide
  funext x z
  obtain ⟨hmm, hmp, hpm, hpp⟩ := hmod x
  simp only [mix, sub_zero, hmm, hmp, hpm, hpp]
  simp [Bool.xor_left_comm]

/-- Six doublings make the move along z one by 64, that is none, and the move along x one by 64 = 4 modulo 5. -/
theorem mix_one_injective : Function.Injective (mix 1 1) := by
  have hfour : Function.Injective (mix 4 0) := Function.LeftInverse.injective mix_three_mix_four
  iterate 6 apply mix_injective_of_double
  exact hfour

/-- The column parities of R102, bit by bit. -/
def columnParity (A : Lanes) (x : Fin 5) (z : Fin 64) : Bool := (thetaC A x).getLsbD z

theorem columnParity_ext {A B : Lanes} (h : columnParity A = columnParity B) : thetaC A = thetaC B :=
  funext fun x => BitVec.eq_of_getLsbD_eq fun z hz => congrFun (congrFun h x) ⟨z, hz⟩

/-- Theta XORs D[x] into five lanes of a column, an odd number. -/
theorem thetaC_theta (A : Lanes) (x : Fin 5) : thetaC (theta A) x = thetaC A x ^^^ thetaD A x := by
  refine BitVec.eq_of_getLsbD_eq fun z _ => ?_
  simp [thetaC, Bool.xor_left_comm]

theorem columnParity_theta (A : Lanes) : columnParity (theta A) = mix 1 1 (columnParity A) := by
  funext x z
  have hleft : x + 4 = x - 1 := by decide +revert
  have hdown : (z.val + 63) % 64 = (z - 1).val := by rw [Fin.val_sub]; omega
  rw [columnParity, thetaC_theta, BitVec.getLsbD_xor, thetaD_getLsbD A x z.isLt, hleft, hdown]
  rfl

/-- The output fixes the parities of the input, they fix D, and D the input. -/
theorem theta_injective : Function.Injective theta := by
  intro A B h
  have hparity : columnParity A = columnParity B :=
    mix_one_injective (by rw [← columnParity_theta, ← columnParity_theta, h])
  have hC := columnParity_ext hparity
  refine Lanes.ext_lane fun x y => ?_
  simpa only [theta_lane, thetaD, hC, BitVec.xor_left_inj] using congrArg (·.lane x y) h

/-! The other step mappings are injective -/

theorem rotl64_injective {n : Nat} (hn : n < 64) : Function.Injective (rotl64 · n) := by
  intro v w h
  refine BitVec.eq_of_getLsbD_eq fun z hz => ?_
  have hbit := congrArg (BitVec.getLsbD · ((z + n) % 64)) h
  have hsrc : ((z + n) % 64 + 64 - n) % 64 = z := by omega
  simpa only [rotateMovesBits _ n _ hn (Nat.mod_lt _ (by decide)), hsrc] using hbit

theorem rhoOffset_lt (x y : Fin 5) : rhoOffset x y < 64 := by decide +revert

theorem rho_injective : Function.Injective rho := by
  intro A B h
  refine Lanes.ext_lane fun x y => rotl64_injective (rhoOffset_lt x y) ?_
  simpa only [rho_lane] using congrArg (·.lane x y) h

/-- Pi moves lane (x, y) to (y, 2(x - y)), as 3 · 2 = 1 modulo 5. -/
theorem piStep_injective : Function.Injective piStep := by
  intro A B h
  refine Lanes.ext_lane fun x y => ?_
  have hfrom : y + 3 * (2 * (x - y)) = x := by decide +revert
  simpa only [piStep_lane, hfrom] using congrArg (·.lane y (2 * (x - y))) h

/-- Chi on one bit of a row, with the two bits to its right. -/
def chiBit (a b c : Bool) : Bool := a ^^ (!b && c)

/-- A bit of a row as a function of the row that Chi makes of it. -/
theorem chiBit_inverse (a b c d e : Bool) :
    chiBit (chiBit a b c) (chiBit b c d) (chiBit (chiBit c d e) (chiBit d e a) (chiBit e a b)) = a := by decide +revert

theorem chi_getLsbD (A : Lanes) (x y : Fin 5) {z : Nat} (hz : z < 64) :
    ((chi A).lane x y).getLsbD z =
      chiBit ((A.lane x y).getLsbD z) ((A.lane (x + 1) y).getLsbD z) ((A.lane (x + 2) y).getLsbD z) := by
  simp [chiBit, hz]

/-- The inverse of Chi on rows, read at bit z of lane (x, y). -/
def chiInverseBit (A : Lanes) (x y : Fin 5) (z : Nat) : Bool :=
  chiBit ((A.lane x y).getLsbD z) ((A.lane (x + 1) y).getLsbD z)
    (chiBit ((A.lane (x + 2) y).getLsbD z) ((A.lane (x + 3) y).getLsbD z) ((A.lane (x + 4) y).getLsbD z))

theorem chiInverseBit_chi (A : Lanes) (x y : Fin 5) {z : Nat} (hz : z < 64) :
    chiInverseBit (chi A) x y z = (A.lane x y).getLsbD z := by
  have hmod : x + 1 + 1 = x + 2 ∧ x + 1 + 2 = x + 3 ∧ x + 2 + 1 = x + 3 ∧ x + 2 + 2 = x + 4 ∧ x + 3 + 1 = x + 4 ∧
      x + 3 + 2 = x ∧ x + 4 + 1 = x ∧ x + 4 + 2 = x + 1 := by decide +revert
  simp only [chiInverseBit, chi_getLsbD A _ y hz, hmod, chiBit_inverse]

theorem chi_injective : Function.Injective chi := fun A B h =>
  lanes_ext_bits fun x y z hz => by rw [← chiInverseBit_chi A x y hz, h, chiInverseBit_chi B x y hz]

theorem iota_injective (rc : Lane) : Function.Injective (iota · rc) := by
  intro A B h
  refine Lanes.ext_lane fun x y => ?_
  simpa only [iota_lane, BitVec.xor_left_inj] using congrArg (·.lane x y) h

/-! The permutation is a bijection -/

theorem rnd_injective (rc : Lane) : Function.Injective (rnd · rc) :=
  (iota_injective rc).comp (chi_injective.comp (piStep_injective.comp (rho_injective.comp theta_injective)))

theorem foldl_rnd_injective (rcs : List Lane) : Function.Injective (rcs.foldl rnd) := by
  induction rcs with
  | nil => exact Function.injective_id
  | cons rc rcs ih => exact ih.comp (rnd_injective rc)

theorem lanes_finite : Finite Lanes :=
  Finite.of_injective Lanes.lane fun _ _ h => Lanes.ext_lane fun x y => congrFun (congrFun h x) y

/-- Settles O53: every step mapping is injective, and the lane arrays are finitely many. -/
theorem keccakFIsBijective : Obligations.KeccakFIsBijective :=
  have := lanes_finite
  Finite.injective_iff_bijective.mp (foldl_rnd_injective rcTable)

end Sys2Proof.Proofs

namespace Sys2Proof.Proofs

open Sys2Proof.Machine Sys2Proof.Laws

/-! Padding and finalization -/

/-- Settles O35: the last block is the buffer and then the padding bytes, whose bits are Pad. -/
theorem padBlockIsBitPadding : Obligations.PadBlockIsBitPadding :=
  fun _ mode buf h => ⟨padBlock_length mode buf h, bitsOf_padBlock mode h⟩

/-- In Squeezing, SQUEEZE or DIGEST puts out `n` bytes from where the output stands (R134, R138). -/
theorem exec_output_of_squeezing {s : State} {n : Nat} {last : Instr} (hcfg : s.configured = true) (hph : s.phase = .squeezing)
    (hlast : last = .squeeze n ∨ (last = .digest ∧ s.mode = .fixed ∧ n = s.digestBytes.toNat)) :
    exec last s = .next (emitSqueezed n s) := by
  obtain rfl | ⟨rfl, hm, rfl⟩ := hlast
  · simp [exec, execSqueeze, hcfg, enterSqueezing_squeezing hph]
  · simp [exec, execDigest, hcfg, hm, enterSqueezing_squeezing hph]

/-- Settles O36: both sides put out the same number of bytes from the finalized state, which the right side starts from. -/
theorem firstOutputCommandFinalizes : Obligations.FirstOutputCommandFinalizes := by
  intro s i hcfg hph hi
  change exec i s = exec i (finalize s)
  obtain ⟨n, hn⟩ : ∃ n, i = .squeeze n ∨ (i = .digest ∧ s.mode = .fixed ∧ n = s.digestBytes.toNat) := by
    obtain ⟨n, hsqueeze⟩ | ⟨hdigest, hm⟩ := hi
    · exact ⟨n, .inl hsqueeze⟩
    · exact ⟨_, .inr ⟨hdigest, hm, rfl⟩⟩
  calc exec i s
    _ = .next (emitSqueezed n (finalize s)) := exec_output_of_absorbing hcfg hph hn
    _ = exec i (finalize s) := (exec_output_of_squeezing (s := finalize s) hcfg rfl hn).symm

end Sys2Proof.Proofs

namespace Sys2Proof.Proofs

open Sys2Proof.Machine Sys2Proof.Laws

/-! ABSORB with its payload on DIN -/

/-- With its payload on DIN, ABSORB takes it and runs on it (R131). -/
theorem exec_absorb_ready {s : State} {n : Nat} (h : n ≤ s.din.length) :
    exec (.absorb n) s = .next (absorbTaken (s.din.take n) { s with din := s.din.drop n, activity := .idle }) :=
  congrArg Host.Outcome.next (dinTake_ready h)

/-- In Absorbing that is the loop, on A and BUF. -/
theorem exec_absorb_of_absorbing {s : State} {n : Nat} (hcfg : s.configured = true) (hph : s.phase = .absorbing)
    (h : n ≤ s.din.length) :
    exec (.absorb n) s = .next { s with
      A := (absorbBytes s.rateBytes.toNat (s.din.take n) s.A s.buf).1
      buf := (absorbBytes s.rateBytes.toNat (s.din.take n) s.A s.buf).2
      din := s.din.drop n
      err := .success
      activity := .idle } :=
  exec_succeeds h (by simp [checkOf, hcfg, hph])

theorem absorbBytes_eq_foldl (rate : Nat) (p : List Byte) (A : Lanes) (buf : List Byte) :
    absorbBytes rate p A buf = p.foldl
      (fun (q : Lanes × List Byte) b =>
        if (q.2 ++ [b]).length = rate then (absorbBlock (q.2 ++ [b]) q.1, []) else (q.1, q.2 ++ [b]))
      (A, buf) := by
  induction p generalizing A buf with
  | nil => rfl
  | cons b p ih =>
    rw [absorbBytes, List.foldl_cons, List.length_append, List.length_singleton]
    split
    · exact ih _ _
    · exact ih _ _

/-- Settles O30: the model's loop is the fold of its body. -/
theorem absorbRunsItsLoop : Obligations.AbsorbRunsItsLoop := by
  intro s n hcfg hph hn
  exact ⟨_, absorbBytes_eq_foldl _ _ _ _, exec_absorb_of_absorbing hcfg hph hn⟩

/-! The blocks that ABSORB absorbs -/

/-- The loop cuts the buffer and the chunk into the blocks it absorbs and what it leaves in the buffer (R131). -/
theorem absorbBytes_blocks (rate : Nat) (p : List Byte) (A : Lanes) (buf : List Byte) :
    ∃ blocks : List (List Byte), (∀ b ∈ blocks, b.length = rate) ∧
      blocks.flatten ++ (absorbBytes rate p A buf).2 = buf ++ p ∧
      (absorbBytes rate p A buf).1 = blocks.foldl (fun A b => absorbBlock b A) A := by
  induction p generalizing A buf with
  | nil => exact ⟨[], by simp, by simp, rfl⟩
  | cons b p ih =>
    rw [absorbBytes]
    split
    next hfull =>
      obtain ⟨blocks, hlen, hbytes, hA⟩ := ih (absorbBlock (buf ++ [b]) A) []
      exact ⟨(buf ++ [b]) :: blocks, by simpa [hfull] using hlen, by simpa using hbytes, hA⟩
    next =>
      obtain ⟨blocks, hlen, hbytes, hA⟩ := ih A (buf ++ [b])
      exact ⟨blocks, hlen, by simpa using hbytes, hA⟩

/-- The blocks and the rest have the bytes that were cut. -/
theorem blocks_length_mul_add {rate : Nat} {blocks : List (List Byte)} {rest bytes : List Byte}
    (hlen : ∀ b ∈ blocks, b.length = rate) (h : blocks.flatten ++ rest = bytes) :
    blocks.length * rate + rest.length = bytes.length := by
  rw [← h, List.length_append, List.length_flatten, List.map_congr_left hlen, List.map_const', List.sum_replicate,
    smul_eq_mul]

/-- The source's loop absorbs whole blocks one by one and stops at a rest shorter than a block. -/
theorem absorbWhole_flatten {rate fuel : Nat} {blocks : List (List Byte)} {rest : List Byte} (A : Lanes)
    (hlen : ∀ b ∈ blocks, b.length = rate) (hrest : rest.length < rate) (hfuel : blocks.length ≤ fuel) :
    absorbWhole rate fuel A (blocks.flatten ++ rest) = (blocks.foldl (fun A b => absorbBlock b A) A, rest) := by
  induction blocks generalizing A fuel with
  | nil => cases fuel <;> simp [absorbWhole, hrest]
  | cons b blocks ih =>
    obtain ⟨hb, hblocks⟩ := List.forall_mem_cons.mp hlen
    obtain ⟨fuel, rfl⟩ := Nat.exists_eq_add_of_le' (Nat.le_of_add_left_le hfuel)
    have hfull : rate ≤ (b ++ (blocks.flatten ++ rest)).length := by simp [hb]
    rw [List.flatten_cons, List.append_assoc, absorbWhole, if_pos hfull, List.take_left' hb, List.drop_left' hb]
    exact ih _ hblocks (Nat.le_of_succ_le_succ hfuel)

/-- From a buffer shorter than a block, the loop of the model is the source's. -/
theorem absorbBytes_eq_absorbWhole {rate fuel : Nat} (p : List Byte) (A : Lanes) {buf : List Byte} (h : buf.length < rate)
    (hfuel : buf.length + p.length ≤ fuel) : absorbBytes rate p A buf = absorbWhole rate fuel A (buf ++ p) := by
  obtain ⟨blocks, hlen, hbytes, hA⟩ := absorbBytes_blocks rate p A buf
  have hcount : blocks.length ≤ fuel := by
    have htotal := blocks_length_mul_add hlen hbytes
    have hblock := Nat.le_mul_of_pos_right blocks.length (Nat.zero_lt_of_lt h)
    rw [List.length_append] at htotal
    omega
  rw [← hbytes, absorbWhole_flatten A hlen (absorbBytes_buf_lt p A h) hcount, ← hA]

/-- Settles O31: as `absorbBytes_eq_absorbWhole`, with a fuel of one for each byte. -/
theorem absorbEqualsBlockForm : Obligations.AbsorbEqualsBlockForm := by
  intro s n hcfg hph hbuf hn
  rw [exec_absorb_of_absorbing hcfg hph hn, absorbBytes_eq_absorbWhole _ _ hbuf (by rw [List.length_take_of_le hn])]

/-- Settles O32: the blocks are those of `absorbBytes_blocks`; the bytes there are bound their number. -/
theorem absorbKeepsEveryByte : Obligations.AbsorbKeepsEveryByte := by
  intro s t n hcfg hph hbuf hn h
  obtain rfl := Host.Outcome.next.inj ((exec_absorb_of_absorbing hcfg hph hn).symm.trans h)
  obtain ⟨blocks, hlen, hbytes, hA⟩ := absorbBytes_blocks s.rateBytes.toNat (s.din.take n) s.A s.buf
  refine ⟨blocks, hlen, hbytes, absorbBytes_buf_lt _ _ hbuf, ?_, hA⟩
  have hcount : blocks.length * s.rateBytes.toNat ≤ n + s.rateBytes.toNat := by
    have htotal := blocks_length_mul_add hlen hbytes
    rw [List.length_append, List.length_take_of_le hn] at htotal
    omega
  rw [← Nat.add_div_right n (Nat.zero_lt_of_lt hbuf)]
  exact (Nat.le_div_iff_mul_le (Nat.zero_lt_of_lt hbuf)).mpr hcount

/-! Several ABSORBs in a row -/

theorem absorbTaken_din (p : List Byte) (s : State) : (absorbTaken p s).din = s.din := by
  obtain ⟨_, h⟩ | ⟨_, _, h⟩ | ⟨_, _, h⟩ := absorbTaken_cases p s <;> rw [h] <;> rfl

/-- Two chunks are taken as one, in whatever way the checks end. -/
theorem absorbTaken_append (p q d : List Byte) (s : State) :
    absorbTaken q { absorbTaken p s with din := d, activity := .idle } =
      absorbTaken (p ++ q) { s with din := d, activity := .idle } := by
  obtain ⟨hc, h⟩ | ⟨hc, hp, h⟩ | ⟨hc, hp, h⟩ := absorbTaken_cases p s
  · rw [h]
    simp [absorbTaken, hc, raiseError]
  · rw [h]
    simp [absorbTaken, hc, hp, raiseError]
  · rw [h]
    simp [absorbTaken, hc, hp, State.succeed, absorbBytes_append]

/-- After an ABSORB, another whose payload follows on DIN does what one of both payloads does. -/
theorem exec_absorb_add {s t : State} {m n : Nat} (h : exec (.absorb m) s = .next t) (hdin : m + n ≤ s.din.length) :
    exec (.absorb n) t = exec (.absorb (m + n)) s := by
  obtain rfl := Host.Outcome.next.inj ((exec_absorb_ready (Nat.le_of_add_right_le hdin)).symm.trans h)
  rw [exec_absorb_ready (by rw [absorbTaken_din, List.length_drop]; omega), exec_absorb_ready hdin, absorbTaken_din,
    absorbTaken_append, List.take_add, List.drop_drop]

theorem exec_absorb_din {s t : State} {n : Nat} (h : exec (.absorb n) s = .next t) (hdin : n ≤ s.din.length) :
    t.din = s.din.drop n := by
  obtain rfl := Host.Outcome.next.inj ((exec_absorb_ready hdin).symm.trans h)
  rw [absorbTaken_din]

theorem execAll_singleton (i : Instr) (s : State) : execAll [i] s = exec i s := by
  obtain ⟨t, h⟩ := exec_next i s
  rw [execAll_cons h, h, execAll]

/-- ABSORBs in a row are one ABSORB: by induction on the chunks after the first, which joins the one before it. -/
theorem execAll_absorb_cons (ns : List Nat) {s : State} {n : Nat} (hdin : n + ns.sum ≤ s.din.length) :
    execAll ((n :: ns).map .absorb) s = exec (.absorb (n + ns.sum)) s := by
  induction ns generalizing s n with
  | nil => exact execAll_singleton _ s
  | cons m ns ih =>
    rw [List.sum_cons] at hdin ⊢
    obtain ⟨t, h⟩ := exec_next (.absorb n) s
    have hrest : m + ns.sum ≤ t.din.length := by
      rw [exec_absorb_din h (Nat.le_of_add_right_le hdin), List.length_drop]
      omega
    rw [List.map_cons, execAll_cons h, ih hrest, exec_absorb_add h hdin]

/-- Settles O33: a non-empty list of chunks has a first. -/
theorem absorbStreamingEquivalence : Obligations.AbsorbStreamingEquivalence := by
  intro s ns hne hsum
  obtain ⟨n, ns, rfl⟩ := List.exists_cons_of_ne_nil hne
  exact execAll_absorb_cons ns hsum

/-! A and SQ_OFF after SQUEEZE -/

/-- The loop leaves A and SQ_OFF where byte `off + n` of the stream, the last one put out, was found (R136, R137). -/
theorem squeezeBytes_succ_position {rate : BitVec 8} (hr : 0 < rate.toNat) (n : Nat) (A : Lanes) {off : BitVec 8}
    (hoff : off.toNat ≤ rate.toNat) :
    (squeezeBytes rate (n + 1) A off).A = Nat.repeat keccakF ((off.toNat + n) / rate.toNat) A ∧
    (squeezeBytes rate (n + 1) A off).sqOff = BitVec.ofNat 8 ((off.toNat + n) % rate.toNat + 1) := by
  induction n generalizing A off with
  | zero =>
    rw [squeezeBytes]
    by_cases h : off = rate
    · subst h
      simp [Nat.div_self hr, Nat.repeat]
    · have hlt : off.toNat < rate.toNat := lt_of_le_of_ne hoff (BitVec.toNat_ne_iff_ne.mpr h)
      simp [h, Nat.div_eq_of_lt hlt, Nat.mod_eq_of_lt hlt, Nat.repeat, BitVec.ofNat_add]
  | succ n ih =>
    have hbyte := rate.isLt
    rw [squeezeBytes]
    by_cases h : off = rate
    · subst h
      have hnext : (0 + 1 : BitVec 8).toNat = 1 := rfl
      obtain ⟨hA, hsq⟩ := ih (keccakF A) (off := 0 + 1) (by rw [hnext]; omega)
      rw [hnext, Nat.add_comm 1 n] at hA hsq
      simp only [if_true, hA, hsq, repeat_succ_inner, Nat.add_div_left _ hr, Nat.add_mod_left, and_self]
    · have hne : off.toNat ≠ rate.toNat := BitVec.toNat_ne_iff_ne.mpr h
      have hnext : (off + 1).toNat = off.toNat + 1 := by simp; omega
      obtain ⟨hA, hsq⟩ := ih A (off := off + 1) (by rw [hnext]; omega)
      rw [hnext, Nat.add_assoc, Nat.add_comm 1 n] at hA hsq
      simp only [if_neg h, hA, hsq, and_self]

/-- Settles O37: no byte leaves the position as it is; the last of `n + 1` bytes is `n` bytes on. -/
theorem squeezeEmitsNextStreamBytes : Obligations.SqueezeEmitsNextStreamBytes := by
  intro s n hcfg hph hr hoff hroom
  rw [exec_output_of_squeezing hcfg hph (.inl rfl), emitSqueezed_fits hroom, squeezeBytes_bytes hr n s.A hoff]
  cases n with
  | zero => rfl
  | succ n =>
    obtain ⟨hA, hsq⟩ := squeezeBytes_succ_position hr n s.A hoff
    rw [hA, hsq, if_neg (Nat.succ_ne_zero n), if_neg (Nat.succ_ne_zero n)]
    rfl

/-- Settles O38: none for no byte; for `n + 1`, the number of whole blocks before the last byte. -/
theorem squeezeWorkIsBounded : Obligations.SqueezeWorkIsBounded := by
  intro s t n hcfg hph hr hoff h
  obtain rfl := Host.Outcome.next.inj ((exec_output_of_squeezing hcfg hph (.inl rfl)).symm.trans h)
  cases n with
  | zero => exact ⟨0, by omega, rfl⟩
  | succ n =>
    refine ⟨(s.sqOff.toNat + n) / s.rateBytes.toNat, ?_, (squeezeBytes_succ_position hr n s.A hoff).1⟩
    have hblocks := Nat.div_mul_le_self (s.sqOff.toNat + n) s.rateBytes.toNat
    omega

/-! Two output commands in a row -/

theorem exec_squeeze_of_configured {s : State} (n : Nat) (hcfg : s.configured = true) :
    exec (.squeeze n) s = .next (emitSqueezed n (enterSqueezing s)) :=
  exec_succeeds (Nat.zero_le _) (by simp [checkOf, hcfg])

/-- With room for both, the output of a second command follows that of the first as if one had put out both. -/
theorem emitSqueezed_add {s : State} {m n : Nat} (h : s.dout.length + m + n ≤ s.doutDepth) :
    emitSqueezed n (emitSqueezed m s) = emitSqueezed (m + n) s := by
  rw [emitSqueezed_fits (n := m) (Nat.le_of_add_right_le h), emitSqueezed_fits (by simpa using h),
    emitSqueezed_fits (n := m + n) (by rwa [← Nat.add_assoc]), squeezeBytes_add, ← List.append_assoc]

/-- Settles O39: an unconfigured engine fails both ways; otherwise the second command finds the engine in Squeezing. -/
theorem squeezeContinuation : Obligations.SqueezeContinuation := by
  intro s m n hroom
  cases hcfg : s.configured with
  | false => simp [execAll, exec, execSqueeze, hcfg, raiseError]
  | true =>
    obtain ⟨hconf, -, -, -, -, -, -, -, -, -, hdout, hdepth, -⟩ := enterSqueezing_frame s
    rw [execAll_cons (exec_squeeze_of_configured m hcfg), execAll_singleton,
      exec_output_of_squeezing (n := n) (s := emitSqueezed m (enterSqueezing s)) (hconf.trans hcfg) (enterSqueezing_phase s)
        (.inl rfl),
      emitSqueezed_add (by rwa [hdout, hdepth]), exec_squeeze_of_configured _ hcfg]

/-- In Fixed mode DIGEST is a SQUEEZE of DIGEST_BYTES (R138). -/
theorem exec_digest_eq_squeeze {s : State} (hcfg : s.configured = true) (hm : s.mode = .fixed) :
    exec .digest s = exec (.squeeze s.digestBytes.toNat) s := by
  rw [exec_squeeze_of_configured _ hcfg]
  exact exec_succeeds (Nat.zero_le _) (by simp [checkOf, hcfg, hm])

/-- Settles O40: with room, all of the SQUEEZE's output is on DOUT. -/
theorem digestIsSqueezeOfDigestBytes : Obligations.DigestIsSqueezeOfDigestBytes := by
  intro s hcfg hm
  refine ⟨exec_digest_eq_squeeze hcfg hm, fun hroom => ?_⟩
  obtain ⟨-, -, -, -, -, -, -, -, -, -, hdout, hdepth, -⟩ := enterSqueezing_frame s
  rw [exec_digest_eq_squeeze hcfg hm, exec_squeeze_of_configured _ hcfg, emitSqueezed_fits (by rwa [hdout, hdepth]), hdout]
  exact ⟨_, _, rfl, rfl, rfl, enterSqueezing_phase s, rfl, squeezeBytes_length _ _ _ _⟩

/-- Settles O41: the first DIGEST keeps the configuration, so both are SQUEEZEs of DIGEST_BYTES. -/
theorem secondDigestContinuesStream : Obligations.SecondDigestContinuesStream := by
  intro s hcfg hm hroom
  obtain ⟨t, h⟩ := exec_next .digest s
  obtain ⟨hconf, hmode, -, -, hdigest, -⟩ := exec_keepsInstance (by simp) h
  have hfirst := (exec_digest_eq_squeeze hcfg hm).symm.trans h
  calc execAll [.digest, .digest] s
    _ = exec .digest t := by rw [execAll_cons h, execAll_singleton]
    _ = exec (.squeeze s.digestBytes.toNat) t := by
        rw [exec_digest_eq_squeeze (hconf.trans hcfg) (hmode.trans hm), hdigest]
    _ = execAll [.squeeze s.digestBytes.toNat, .squeeze s.digestBytes.toNat] s := by
        rw [execAll_cons hfirst, execAll_singleton]
    _ = exec (.squeeze (2 * s.digestBytes.toNat)) s := by
        rw [squeezeContinuation s _ _ (by omega), Nat.two_mul]

end Sys2Proof.Proofs

namespace Sys2Proof.Proofs

open Sys2Proof.Machine Sys2Proof.Laws

/-! INIT: the six presets and every other pair -/

theorem exec_init_of_preset {p : Preset} (hp : p ∈ presetTable) (s : State) :
    exec (.init p.family p.level) s = .next (beginInstance p s) := by
  simp [exec, execInit, preset?_of_mem hp]

theorem exec_init_of_preset_eq_none {fam : Family} {level : Nat} (h : preset? fam level = none) (s : State) :
    exec (.init fam level) s = .next (raiseError .invalidSecurityLevel s) := by
  simp [exec, execInit, h]

/-- Settles O28: the six listed rows are the rows of PRESETS, and a pair that is not listed has no row there. -/
theorem initBeginsInstanceOrRejects : Obligations.InitBeginsInstanceOrRejects := by
  refine ⟨fun s fam level rate dig hrow => ?_, fun s fam level hpair =>
    exec_init_of_preset_eq_none (preset?_eq_none_of_notMem hpair) s⟩
  have hp : (⟨fam, level, rate, dig⟩ : Preset) ∈ presetTable := by simpa [presetTable] using hrow
  cases fam <;> exact exec_init_of_preset hp s

end Sys2Proof.Proofs

namespace Sys2Proof.Proofs

open Sys2Proof.Machine Sys2Proof.Laws

/-! No step stops the engine -/

theorem engineStep_goesOn (s : State) : goesOn (engineStep s) := by
  rcases engineStep_cases s with ⟨_, _, he⟩ | ⟨w, i, _, _, _, he⟩ | ⟨w, r, _, _, _, he⟩ | ⟨i, _, he⟩ | ⟨n, _, he⟩ |
    ⟨rest, _, he⟩ <;> rw [he]
  · exact ⟨_, rfl⟩
  · exact exec_next i _
  · exact ⟨_, rfl⟩
  · exact exec_next i s
  · exact ⟨_, rfl⟩
  · exact ⟨_, rfl⟩

/-- Settles O24: an act of the host answers a next state, and so does the engine's move. -/
theorem everyStepGoesOn : Obligations.EveryStepGoesOn := by
  intro s
  rcases step_cases s with he | ⟨a, rest, _, ⟨_, he⟩ | ⟨w, _, _, he⟩ | ⟨bs, _, he⟩ | ⟨n, _, he⟩ | ⟨i, _, he⟩ | ⟨_, he⟩⟩
  · exact he ▸ engineStep_goesOn s
  · exact he ▸ engineStep_goesOn _
  · exact ⟨_, he⟩
  · exact ⟨_, he⟩
  · exact ⟨_, he⟩
  · exact ⟨_, he⟩
  · exact ⟨_, he⟩

/-! Failing and succeeding commands -/

/-- `s` once the word `w` is accepted: the channel free, the payload of `w` taken from DIN (R51, R73). -/
def accepted (w : Word) (s : State) : State := { s with chan := none, din := s.din.drop (payloadLen w) }

/-- The checks read neither the channel nor DIN. -/
theorem checkOf_accepted (i : Instr) (w : Word) (s : State) : checkOf i (accepted w s) = checkOf i s := by
  cases i <;> rfl

theorem commandOutput_accepted (i : Instr) (w : Word) (s : State) :
    commandOutput i (accepted w s) = commandOutput i s :=
  commandOutput_congr i rfl rfl rfl rfl rfl rfl rfl rfl

/-- A command whose checks pass ends with ERR = 0 (R164). -/
theorem effect_accepted_err {i : Instr} {s : State} (w : Word) (p : List Byte) (hc : checkOf i s = .success) :
    (effect i p (accepted w s)).err = .success := by
  obtain ⟨-, -, -, -, -, herr, -⟩ := effect_frame p ((checkOf_accepted i w s).trans hc)
  exact herr

/-- Settles O18: a failed check or an illegal word leaves the state named; a command whose checks pass ends with ERR = 0. -/
theorem failingCommandChangesOnlyErrAndSticky : Obligations.FailingCommandChangesOnlyErrAndSticky := by
  intro s t w hacc hstep _ herr
  rcases accepts_cases hacc with ⟨i, _, _, he⟩ | ⟨i, _, hc, he⟩ | ⟨r, _, he⟩ <;> rw [he] at hstep <;> cases hstep
  · rfl
  · exact absurd (effect_accepted_err w _ hc) herr
  · rfl

/-! The result code -/

/-- The code of an accepted word: IllegalCommand at decoding, or else that of the command's first failing check (R162). -/
def resultCode (w : Word) (s : State) : ErrCode :=
  match decode w with
  | .error _ => .illegalCommand
  | .ok i => checkOf i s

theorem resultCode_of_error {w : Word} {r : Illegal} (hd : decode w = .error r) (s : State) :
    resultCode w s = .illegalCommand := by
  simp [resultCode, hd]

theorem resultCode_of_ok {w : Word} {i : Instr} (hd : decode w = .ok i) (s : State) : resultCode w s = checkOf i s := by
  simp [resultCode, hd]

/-- With room for its output, an accepted word is done in the step that accepts it, with its result code in ERR. -/
theorem accepts_completes {s : State} {w : Word} (hacc : s.accepts w)
    (hroom : ∀ i, decode w = .ok i → s.dout.length + (commandOutput i s).length ≤ s.doutDepth) :
    ∃ t, step s = .next t ∧ t.activity = .idle ∧ t.err = resultCode w s := by
  have hidle : s.activity = .idle := hacc.2.1
  rcases accepts_cases hacc with ⟨i, hd, _, he⟩ | ⟨i, hd, hc, he⟩ | ⟨r, hd, he⟩
  · exact ⟨_, he, hidle, (resultCode_of_ok hd s).symm⟩
  · have hfit : s.dout.length + (commandOutput i (accepted w s)).length ≤ s.doutDepth := by
      rw [commandOutput_accepted]
      exact hroom i hd
    obtain ⟨hdone, -⟩ := effect_completes (s := accepted w s) (s.din.take (payloadLen w)) hidle
      ((checkOf_accepted i w s).trans hc) hfit
    refine ⟨_, he, hdone, ?_⟩
    rw [resultCode_of_ok hd, hc]
    exact effect_accepted_err w _ hc
  · exact ⟨_, he, hidle, (resultCode_of_error hd s).symm⟩

/-- INIT's check is whether the pair is one of the six of R151. -/
theorem checkOf_init (fam : Family) (level : Nat) (s : State) :
    checkOf (.init fam level) s =
      if (fam, level) ∈ [(Family.sha3, 224), (.sha3, 256), (.sha3, 384), (.sha3, 512), (.shake, 128), (.shake, 256)]
      then .success else .invalidSecurityLevel := by
  split
  next h =>
    obtain ⟨p, hp, hpair⟩ : ∃ p ∈ presetTable, (p.family, p.level) = (fam, level) := List.mem_map.mp h
    obtain ⟨rfl, rfl⟩ := Prod.mk.inj hpair
    simp [checkOf, preset?_of_mem hp]
  next h => simp [checkOf, preset?_eq_none_of_notMem h]

/-- Settles O17: the code is `resultCode`, and the checks of each command are those listed. -/
theorem resultCodeInCheckOrder : Obligations.ResultCodeInCheckOrder := by
  intro s w hacc hroom
  obtain ⟨t, hstep, hidle, herr⟩ := accepts_completes hacc hroom
  refine ⟨t, hstep, by rw [State.busy, hidle], herr.trans ?_⟩
  cases hd : decode w with
  | error r => exact resultCode_of_error hd s
  | ok i =>
    rw [resultCode_of_ok hd]
    cases i with
    | init fam level => exact checkOf_init fam level s
    | _ => rfl

end Sys2Proof.Proofs

namespace Sys2Proof.Proofs

open Sys2Proof.Machine Sys2Proof.Laws

/-! The wait for payload -/

/-- What the engine is doing while the accepted word `w` waits for its payload (R194). -/
def waitingFor (w : Word) : Activity :=
  match decode w with
  | .ok i => .payload i
  | .error _ => .discard (payloadLen w)

theorem waitingFor_of_ok {w : Word} {i : Instr} (hd : decode w = .ok i) : waitingFor w = .payload i := by
  simp [waitingFor, hd]

theorem waitingFor_of_error {w : Word} {r : Illegal} (hd : decode w = .error r) :
    waitingFor w = .discard (payloadLen w) := by
  simp [waitingFor, hd]

theorem waitingFor_ne_idle (w : Word) : waitingFor w ≠ .idle := by
  cases hd : decode w with
  | ok i => simp [waitingFor_of_ok hd]
  | error r => simp [waitingFor_of_error hd]

/-- With too few bytes on DIN an accepted word, legal or not, waits and changes nothing but BUSY. -/
theorem runWord_waits {w : Word} {s : State} (h : s.din.length < payloadLen w) :
    runWord w s = .next { s with activity := waitingFor w } := by
  cases hd : decode w with
  | ok i => rw [runWord_of_ok hd, waitingFor_of_ok hd, exec_waits (payloadLen_eq_payloadOf hd ▸ h)]
  | error r => rw [runWord_of_error hd, waitingFor_of_error hd, runIllegal, dinTake_waits h]

/-- The move of an engine that waits for the payload of `w` is to run `w` again. -/
theorem step_of_waitingFor {w : Word} {s : State} (hsilent : s.host.script = []) (ha : s.activity = waitingFor w) :
    step s = runWord w s := by
  rw [step_silent hsilent]
  cases hd : decode w with
  | ok i => rw [engineStep_of_payload (ha.trans (waitingFor_of_ok hd)), runWord_of_ok hd]
  | error r => rw [engineStep_of_discard (ha.trans (waitingFor_of_error hd)), runWord_of_error hd]

theorem step_of_word {w : Word} {s : State} (hsilent : s.host.script = []) (ha : s.activity = .idle)
    (hw : s.chan = some w) : step s = runWord w { s with chan := none } := by
  rw [step_silent hsilent, engineStep_of_word ha hw]

/-- A payload that is there is taken in the same way whether the engine has waited for it or not. -/
theorem dinTake_activity {waiting : Activity} {n : Nat} {s : State} {run : List Byte → State → State} (a : Activity)
    (h : n ≤ s.din.length) : dinTake waiting n { s with activity := a } run = dinTake waiting n s run := by
  rw [dinTake_ready h, dinTake_ready (s := { s with activity := a }) h]

theorem exec_activity {i : Instr} {s : State} (a : Activity) (hpos : 0 < payloadOf i) (h : payloadOf i ≤ s.din.length) :
    exec i { s with activity := a } = exec i s := by
  cases i with
  | absorb n => exact congrArg Host.Outcome.next (dinTake_activity a h)
  | sload n => exact congrArg Host.Outcome.next (dinTake_activity a h)
  | _ => exact absurd hpos (Nat.lt_irrefl 0)

theorem runWord_activity {w : Word} {s : State} (a : Activity) (hpos : 0 < payloadLen w)
    (h : payloadLen w ≤ s.din.length) : runWord w { s with activity := a } = runWord w s := by
  cases hd : decode w with
  | ok i =>
    rw [payloadLen_eq_payloadOf hd] at hpos h
    rw [runWord_of_ok hd, runWord_of_ok hd, exec_activity a hpos h]
  | error r => rw [runWord_of_error hd, runWord_of_error hd, runIllegal, runIllegal, dinTake_activity a h]

/-- Settles O21: every step of the wait runs the word again, and a word whose payload is there does not see the wait. -/
theorem missingPayloadIsWaitedFor : Obligations.MissingPayloadIsWaitedFor := by
  intro s w hsilent hidle hw hshort
  refine ⟨{ s with chan := none, activity := waitingFor w }, ?_, (busy_iff _).mpr (waitingFor_ne_idle w), rfl, ?_,
    fun bs hthere => ?_⟩
  · exact (step_of_word hsilent hidle hw).trans (runWord_waits hshort)
  · exact (step_of_waitingFor (s := { s with chan := none, activity := waitingFor w }) hsilent rfl).trans
      (runWord_waits hshort)
  · calc step (send bs { s with chan := none, activity := waitingFor w })
      _ = runWord w { send bs { s with chan := none } with activity := waitingFor w } := step_of_waitingFor hsilent rfl
      _ = runWord w (send bs { s with chan := none }) := runWord_activity _ (by omega) hthere
      _ = step (send bs s) := (step_of_word (s := send bs s) hsilent hidle hw).symm

/-! The wait for room -/

/-- A full DOUT takes none of the waiting bytes. -/
theorem doutPut_full {rest : List Byte} {s : State} (ha : s.activity = .output rest) (hne : rest ≠ [])
    (h : s.doutDepth ≤ s.dout.length) : doutPut rest s = s := by
  have hroom : s.doutRoom = 0 := Nat.sub_eq_zero_of_le h
  simp [doutPut, hroom, hne, ← ha]

/-- The command is done exactly when all its bytes have found room. -/
theorem doutPut_busy_eq_false_iff {bs : List Byte} (s : State) (hne : bs ≠ []) :
    (doutPut bs s).busy = false ↔ s.dout.length + bs.length ≤ s.doutDepth := by
  have hidle : (doutPut bs s).busy = false ↔ bs.length ≤ s.doutRoom := by
    rw [← Bool.not_eq_true, busy_iff, not_not, doutPut_activity]
    simp
  have hpos : 0 < bs.length := List.length_pos_iff.mpr hne
  rw [hidle, State.doutRoom]
  omega

/-- Settles O22: the step is `doutPut` of the waiting bytes. -/
theorem fullDoutIsWaitedFor : Obligations.FullDoutIsWaitedFor := by
  intro s rest hsilent ha hne
  have hstep : step s = .next (doutPut rest s) := by rw [step_silent hsilent, engineStep_of_output ha]
  have hstream : (doutPut rest s).outputStream = s.outputStream := by
    rw [doutPut_outputStream, State.outputStream, ha, Activity.unplaced]
  obtain ⟨now, later, hcat, hlen, hput⟩ := doutPut_split rest s
  exact ⟨_, now, later, hstep, by rw [hput], hcat, hlen, by rw [hput], hstream, doutPut_full ha hne,
    doutPut_busy_eq_false_iff s hne⟩

/-! The reset input -/

/-- Settles O2, value by value: the turn is `assertReset`, which writes them whatever command is in progress. -/
theorem resetInputRestoresResetValues : Obligations.ResetInputRestoresResetValues := by
  intro s rest h
  exact ⟨_, step_scripted h, Lanes.lane_zero, rfl, rfl, rfl, rfl, rfl, rfl, rfl, rfl, rfl, rfl, rfl, rfl, rfl, rfl⟩

end Sys2Proof.Proofs
